-- ==== Sys2Proof/Word.lean ====
section
/-! DEFINITION. The machine's words: bytes, 16-bit words, register numbers (00_scope.md R10, 10_state.md R20). -/

namespace Sys2Proof

/-- An 8-bit value: a general register, a timer, a byte of memory (10_state.md R20, R31, R33). -/
abbrev Byte := BitVec 8

/-- A 16-bit value: an instruction word, `PC`, `I`, a stack entry (00_scope.md R8). -/
abbrev Word := BitVec 16

/-- The number of a general register, 0..15 (10_state.md R20). -/
abbrev Reg := Fin 16

/-- VF, register 15, which some instructions also write as a flag (10_state.md R23). -/
abbrev VF : Reg := 15

end Sys2Proof
end

