-- ==== Sys2Proof/Syntax.lean ====
section
/-! DEFINITION. The instruction set: one constructor per row of the opcode map (30_encoding.md R96) in the table's order,
and the default arm (45_unknown_opcode.md R220). -/

namespace Sys2Proof

/-- One instruction. `x`, `y` name registers, `kk` is the byte immediate, `nnn` the address immediate, `n` the number of
sprite rows (30_encoding.md R91, R94). -/
inductive Instr
  /-- `00E0` CLS -/
  | cls
  /-- `00EE` RET -/
  | ret
  /-- `1nnn` JP addr -/
  | jp (nnn : BitVec 12)
  /-- `2nnn` CALL addr -/
  | call (nnn : BitVec 12)
  /-- `3xkk` SE Vx, byte -/
  | seImm (x : Reg) (kk : Byte)
  /-- `4xkk` SNE Vx, byte -/
  | sneImm (x : Reg) (kk : Byte)
  /-- `5xy0` SE Vx, Vy -/
  | seReg (x y : Reg)
  /-- `6xkk` LD Vx, byte -/
  | ldImm (x : Reg) (kk : Byte)
  /-- `7xkk` ADD Vx, byte -/
  | addImm (x : Reg) (kk : Byte)
  /-- `8xy0` LD Vx, Vy -/
  | ldReg (x y : Reg)
  /-- `8xy1` OR Vx, Vy -/
  | orReg (x y : Reg)
  /-- `8xy2` AND Vx, Vy -/
  | andReg (x y : Reg)
  /-- `8xy3` XOR Vx, Vy -/
  | xorReg (x y : Reg)
  /-- `8xy4` ADD Vx, Vy -/
  | addReg (x y : Reg)
  /-- `8xy5` SUB Vx, Vy -/
  | subReg (x y : Reg)
  /-- `8xy6` SHR Vx (the `y` field is encoded as given, R110) -/
  | shr (x y : Reg)
  /-- `8xy7` SUBN Vx, Vy -/
  | subn (x y : Reg)
  /-- `8xyE` SHL Vx (the `y` field is encoded as given, R110) -/
  | shl (x y : Reg)
  /-- `9xy0` SNE Vx, Vy -/
  | sneReg (x y : Reg)
  /-- `Annn` LD I, addr -/
  | ldI (nnn : BitVec 12)
  /-- `Bnnn` JP V0, addr -/
  | jpV0 (nnn : BitVec 12)
  /-- `Cxkk` RND Vx, byte -/
  | rnd (x : Reg) (kk : Byte)
  /-- `Dxyn` DRW Vx, Vy, nibble -/
  | drw (x y : Reg) (n : Fin 16)
  /-- `Ex9E` SKP Vx -/
  | skp (x : Reg)
  /-- `ExA1` SKNP Vx -/
  | sknp (x : Reg)
  /-- `Fx07` LD Vx, DT -/
  | ldVxDt (x : Reg)
  /-- `Fx0A` LD Vx, K -/
  | ldVxK (x : Reg)
  /-- `Fx15` LD DT, Vx -/
  | ldDtVx (x : Reg)
  /-- `Fx18` LD ST, Vx -/
  | ldStVx (x : Reg)
  /-- `Fx1E` ADD I, Vx -/
  | addI (x : Reg)
  /-- `Fx29` LD F, Vx -/
  | ldF (x : Reg)
  /-- `Fx33` LD B, Vx -/
  | ldB (x : Reg)
  /-- `Fx55` LD [I], Vx -/
  | stRegs (x : Reg)
  /-- `Fx65` LD Vx, [I] -/
  | ldRegs (x : Reg)
  /-- Any other word: the unknown-opcode default arm, which carries the word it reports (R220, R221) -/
  | dw (word : Word)
deriving DecidableEq, Repr

end Sys2Proof
end

