-- ==== Sys2Proof/Decode.lean ====
section
/-! DEFINITION. Decoding a word by its nibbles (30_encoding.md R91, R92, R95), and the encoder written from the same
formats (R93). -/

namespace Sys2Proof

/-- `w = op[15:12]` (30_encoding.md R91). -/
def wField (op : Word) : BitVec 4 := op.extractLsb' 12 4

/-- `x = op[11:8]`, a register number (30_encoding.md R91). -/
def xField (op : Word) : Reg := (op.extractLsb' 8 4).toFin

/-- `y = op[7:4]`, a register number (30_encoding.md R91). -/
def yField (op : Word) : Reg := (op.extractLsb' 4 4).toFin

/-- `n = op[3:0]` as the minor opcode (30_encoding.md R91). -/
def nField (op : Word) : BitVec 4 := op.extractLsb' 0 4

/-- `n = op[3:0]` as a count of sprite rows, 0..15 (30_encoding.md R91, R94). -/
def nCount (op : Word) : Fin 16 := (nField op).toFin

/-- `kk = op[7:0]` (30_encoding.md R91). -/
def kkField (op : Word) : Byte := op.extractLsb' 0 8

/-- `nnn = op[11:0]` (30_encoding.md R91). -/
def nnnField (op : Word) : BitVec 12 := op.extractLsb' 0 12

/-- `ALU_SUBOP`: which `n` of `8,x,y,n` selects which operation (30_encoding.md R98; log 3). The other seven codes
select none (41_load_alu.md R152). -/
def aluSubop (n : BitVec 4) (x y : Reg) : Option Instr :=
  match n.toNat with
  | 0x0 => some (.ldReg x y)
  | 0x1 => some (.orReg x y)
  | 0x2 => some (.andReg x y)
  | 0x3 => some (.xorReg x y)
  | 0x4 => some (.addReg x y)
  | 0x5 => some (.subReg x y)
  | 0x6 => some (.shr x y)
  | 0x7 => some (.subn x y)
  | 0xE => some (.shl x y)
  | _ => none

/-- The `w = 0` words: dispatch is on the whole word (30_encoding.md R95, R97; log 2). -/
def decodeZero (op : Word) : Option Instr :=
  match op.toNat with
  | 0x00E0 => some .cls
  | 0x00EE => some .ret
  | _ => none

/-- The `w = E` words: dispatch is on `kk` (30_encoding.md R95). -/
def decodeE (kk : Byte) (x : Reg) : Option Instr :=
  match kk.toNat with
  | 0x9E => some (.skp x)
  | 0xA1 => some (.sknp x)
  | _ => none

/-- The `w = F` words: dispatch is on `kk` (30_encoding.md R95). -/
def decodeF (kk : Byte) (x : Reg) : Option Instr :=
  match kk.toNat with
  | 0x07 => some (.ldVxDt x)
  | 0x0A => some (.ldVxK x)
  | 0x15 => some (.ldDtVx x)
  | 0x18 => some (.ldStVx x)
  | 0x1E => some (.addI x)
  | 0x29 => some (.ldF x)
  | 0x33 => some (.ldB x)
  | 0x55 => some (.stRegs x)
  | 0x65 => some (.ldRegs x)
  | _ => none

/-- The defined instruction a word is, if it is one: dispatch on `w`, then on the minor fields (30_encoding.md R95). -/
def decodeDefined (op : Word) : Option Instr :=
  match (wField op).toNat with
  | 0x0 => decodeZero op
  | 0x1 => some (.jp (nnnField op))
  | 0x2 => some (.call (nnnField op))
  | 0x3 => some (.seImm (xField op) (kkField op))
  | 0x4 => some (.sneImm (xField op) (kkField op))
  | 0x5 => if nField op = 0 then some (.seReg (xField op) (yField op)) else none
  | 0x6 => some (.ldImm (xField op) (kkField op))
  | 0x7 => some (.addImm (xField op) (kkField op))
  | 0x8 => aluSubop (nField op) (xField op) (yField op)
  | 0x9 => if nField op = 0 then some (.sneReg (xField op) (yField op)) else none
  | 0xA => some (.ldI (nnnField op))
  | 0xB => some (.jpV0 (nnnField op))
  | 0xC => some (.rnd (xField op) (kkField op))
  | 0xD => some (.drw (xField op) (yField op) (nCount op))
  | 0xE => decodeE (kkField op) (xField op)
  | _ => decodeF (kkField op) (xField op)

/-- The decoder: total, "every 16-bit value decodes to *something*" (30_encoding.md R92); a word of no row is the
default arm (R100). -/
def decode (op : Word) : Instr := (decodeDefined op).getD (.dw op)

/-- The word of two bytes, high byte first (20_memory.md R66; log 1). -/
def wordOfBytes (hi lo : Byte) : Word := hi ++ lo

/-- The two bytes of a word as memory holds them, high byte first (20_memory.md R66; log 1). -/
def bytesOfWord (op : Word) : List Byte := [op.extractLsb' 8 8, op.extractLsb' 0 8]

/-- Why a sequence of bytes holds no instruction. -/
inductive DecodeError
  /-- Fewer than the 2 bytes every instruction takes (30_encoding.md R90). -/
  | truncated
deriving DecidableEq, Repr

/-- Decoding from bytes: the instruction and the bytes after it. Every instruction is 2 bytes (30_encoding.md R90), so
only a sequence that is too short is refused, by name (log 30). -/
def decodeBytes : List Byte → Except DecodeError (Instr × List Byte)
  | hi :: lo :: rest => .ok (decode (wordOfBytes hi lo), rest)
  | [_] => .error .truncated
  | [] => .error .truncated

/-- A register number as a 4-bit field. -/
def Reg.bits (r : Fin 16) : BitVec 4 := BitVec.ofFin r

/-- Format `NNN`: `w || nnn` (30_encoding.md R93). -/
def packNNN (w : BitVec 4) (nnn : BitVec 12) : Word := w ++ nnn

/-- Formats `XKK` and `X`: `w || x || kk` (30_encoding.md R93). -/
def packXKK (w : BitVec 4) (x : Reg) (kk : Byte) : Word := w ++ (Reg.bits x ++ kk)

/-- Formats `XY` and `XYN`: `w || x || y || n` (30_encoding.md R93). -/
def packXYN (w : BitVec 4) (x y : Reg) (n : BitVec 4) : Word := w ++ (Reg.bits x ++ (Reg.bits y ++ n))

/-- The encoder: the word of an instruction, from the formats of R93 and the constants of R96. -/
def encode : Instr → Word
  | .cls => 0x00E0
  | .ret => 0x00EE
  | .jp nnn => packNNN 0x1 nnn
  | .call nnn => packNNN 0x2 nnn
  | .seImm x kk => packXKK 0x3 x kk
  | .sneImm x kk => packXKK 0x4 x kk
  | .seReg x y => packXYN 0x5 x y 0x0
  | .ldImm x kk => packXKK 0x6 x kk
  | .addImm x kk => packXKK 0x7 x kk
  | .ldReg x y => packXYN 0x8 x y 0x0
  | .orReg x y => packXYN 0x8 x y 0x1
  | .andReg x y => packXYN 0x8 x y 0x2
  | .xorReg x y => packXYN 0x8 x y 0x3
  | .addReg x y => packXYN 0x8 x y 0x4
  | .subReg x y => packXYN 0x8 x y 0x5
  | .shr x y => packXYN 0x8 x y 0x6
  | .subn x y => packXYN 0x8 x y 0x7
  | .shl x y => packXYN 0x8 x y 0xE
  | .sneReg x y => packXYN 0x9 x y 0x0
  | .ldI nnn => packNNN 0xA nnn
  | .jpV0 nnn => packNNN 0xB nnn
  | .rnd x kk => packXKK 0xC x kk
  | .drw x y n => packXYN 0xD x y (Reg.bits n)
  | .skp x => packXKK 0xE x 0x9E
  | .sknp x => packXKK 0xE x 0xA1
  | .ldVxDt x => packXKK 0xF x 0x07
  | .ldVxK x => packXKK 0xF x 0x0A
  | .ldDtVx x => packXKK 0xF x 0x15
  | .ldStVx x => packXKK 0xF x 0x18
  | .addI x => packXKK 0xF x 0x1E
  | .ldF x => packXKK 0xF x 0x29
  | .ldB x => packXKK 0xF x 0x33
  | .stRegs x => packXKK 0xF x 0x55
  | .ldRegs x => packXKK 0xF x 0x65
  | .dw w => w

/-- The bytes of an instruction in memory order. -/
def encodeBytes (i : Instr) : List Byte := bytesOfWord (encode i)

/-- The word the opcode table numbers as `w`, of which it gives `nbits` bits; the bits above them are 0. The table's bit 0
is the word's bit 0, and an instruction is one word. -/
def tableWord (nbits w : Nat) : Word := BitVec.ofNat 16 (w % 2 ^ nbits)

/-- The instruction the decoder reads from the bytes of a table word. -/
def decodeTableWord (nbits w : Nat) : Option Instr :=
  match decodeBytes (bytesOfWord (tableWord nbits w)) with
  | .ok (i, _) => some i
  | .error _ => none

end Sys2Proof
end

