-- ==== Sys2Proof/Config.lean ====
section
/-! DEFINITION. What one machine fixes (00_scope.md R8) and what the spec leaves open (R9). The open parameters and the
inputs have no value here: each is an opaque constant, so whatever is proved holds for every value of it. -/

namespace Sys2Proof.Config

/-- `MEM_SIZE`: "exactly 4096 bytes" (00_scope.md R8). -/
@[simp] abbrev memSize : Nat := 4096

/-- `ROM_BASE`: the fixed load offset and the start address (00_scope.md R8, 10_state.md R42). -/
@[simp] abbrev romBase : Nat := 512

/-- `GLYPH_STRIDE`: bytes of one glyph (00_scope.md R8). -/
@[simp] abbrev glyphStride : Nat := 5

/-- The largest ROM image, 4096 - 512 bytes (47_scheduler.md R241). -/
@[simp] abbrev romMax : Nat := 3584

/-- `FONT_BASE`: OPEN (00_scope.md R9, 92_eei_decisions.md D11). The type holds its one constraint,
`FONT_BASE + 80 <= 512`. Log 10. -/
opaque fontBase : Fin 433

/-- `FONT_DATA`: OPEN, any 80 bytes (00_scope.md R9, 92_eei_decisions.md D11). Log 10. -/
opaque fontData : Vector Byte 80

/-- `CYCLES_PER_TICK - 1`: OPEN (00_scope.md R9, 47_scheduler.md R237). Log 18. -/
opaque cyclesPerTickLessOne : Nat

/-- `CYCLES_PER_TICK`, "an integer of at least 1" (47_scheduler.md R237). -/
def cyclesPerTick : Nat := cyclesPerTickLessOne + 1

/-- The byte of the `n`-th execution of `Cxkk` since reset: an input under no law (41_load_alu.md R153,
47_scheduler.md R245). Log 17. -/
opaque randByte : Nat → Byte

/-- `KEYS_IN` as polled at the end of the tick after `n` completed ticks: an unconstrained input (47_scheduler.md R236,
R244). Log 16. -/
opaque keysIn : Nat → Vector Bool 16

/-- Whether the external `StopRequest` arrives after `n` completed ticks (47_scheduler.md R238, R240). Log 21. -/
opaque stopRequest : Nat → Bool

end Sys2Proof.Config
end

