-- ==== Sys2Proof/Machine/State.lean ====
section
/-! DEFINITION. The state of the machine as plain data (10_state.md), the reasons a step can stop, and the state after
reset (10_state.md R41, 70_reset_and_hazards.md R300). -/

namespace Sys2Proof.Machine

/-- Memory as the bytes that differ from the reset contents: addresses strictly rising, no byte equal to what an unlisted
address reads as (`Memory.wf`). -/
abbrev Memory := List Host.Cell

/-- The framebuffer: 32 rows of 64 one-bit pixels; the pixel of column `c` is bit `c` of its row's word (10_state.md R30;
log 26). -/
abbrev Framebuffer := Vector (BitVec 64) 32

/-- The 16 logical keys, pressed or not (10_state.md R32). -/
abbrev Keys := Vector Bool 16

/-- `RUN` (10_state.md R34). -/
inductive RunState
  | running
  | halted
deriving DecidableEq, Repr

/-- `SCHED` (10_state.md R36). -/
inductive SchedState
  | active
  | stopped
deriving DecidableEq, Repr

/-- `CAUSE`: which fault halted the engine (10_state.md R35, 60_exceptions.md R261). -/
inductive Cause
  /-- 0: no fault -/
  | noFault
  /-- 1: the fetch range leaves memory -/
  | pcRange
  /-- 2: a data access range leaves memory -/
  | memRange
  /-- 3: a call with 16 entries on the stack -/
  | stackOverflow
  /-- 4: a return with an empty stack -/
  | stackUnderflow
  /-- 5: a key number above 15; marks behaviour the document leaves undefined (44_keypad_timers.md R202, log 14) -/
  | keyRange
deriving DecidableEq, Repr

/-- Where the scheduler stands within a tick: the position in the batch of 10_state.md R40 (4), which says which agent
moves next (47_scheduler.md R234; log 19). -/
inductive Phase
  /-- A tick is about to start: the timers are decremented next. -/
  | tickStart
  /-- An engine step is next, and `more` further steps of this tick's batch follow it. -/
  | engine (more : Nat)
  /-- The batch is done: the keys are latched and the framebuffer presented next. -/
  | tickEnd
deriving DecidableEq, Repr

/-- An output of the machine (47_scheduler.md R240). -/
inductive Event
  /-- `Present(bitmap)` (43_display.md R186) -/
  | present (bitmap : Framebuffer)
  /-- `UnknownOpcode(PC, op)` (45_unknown_opcode.md R221) -/
  | unknownOpcode (pc op : Word)
deriving DecidableEq, Repr

/-- The machine's state. -/
structure State where
  /-- `V[0..15]` (10_state.md R20) -/
  v : Vector Byte 16
  /-- `I` (10_state.md R24) -/
  idx : Word
  /-- `PC` (10_state.md R25) -/
  pc : Word
  /-- `STACK[0..15]` (10_state.md R28) -/
  stack : Vector Word 16
  /-- `SP`, 0..16 (10_state.md R28, R37) -/
  sp : Fin 17
  /-- `FB` (10_state.md R30) -/
  fb : Framebuffer
  /-- `DIRTY` (10_state.md R30) -/
  dirty : Bool
  /-- `DT` (10_state.md R31) -/
  dt : Byte
  /-- `ST` (10_state.md R31) -/
  st : Byte
  /-- `KEYS`, the latched keys (10_state.md R32) -/
  keys : Keys
  /-- `MEM` (10_state.md R33) -/
  mem : Memory
  /-- `RUN` (10_state.md R34) -/
  run : RunState
  /-- `CAUSE` (10_state.md R35) -/
  cause : Cause
  /-- `FAULT_PC` (10_state.md R35) -/
  faultPc : Word
  /-- `FAULT_ADDR` (10_state.md R35) -/
  faultAddr : Word
  /-- `SCHED` (10_state.md R36) -/
  sched : SchedState
  /-- Position in the tick (10_state.md R40; log 19) -/
  phase : Phase
  /-- The model's own: random bytes drawn so far (log 17, 27) -/
  draws : Nat
  /-- The model's own: ticks completed so far (log 16, 21, 27) -/
  ticks : Nat
  /-- The model's own record of the outputs, newest first (log 23) -/
  events : List Event
deriving DecidableEq, Repr

/-- Reasons a step stops with a fault: none. Each of the five faults of 60_exceptions.md R261 has an entry the spec
describes (R262), so it is a next state whose `run` is `halted`; nothing raises a fault of this type (safe). -/
inductive Fault
deriving DecidableEq, Repr

/-- Reasons a step is refused. -/
inductive Refusal
  /-- Raised by `exec` for an instruction that has no meaning yet; no arm does (safe). -/
  | notModelled (mnemonic : String)
deriving DecidableEq, Repr

/-- What executing an instruction, or one step, answers. -/
abbrev Result := Host.Outcome State Fault Refusal

/-- The state right after reset (10_state.md R41, 70_reset_and_hazards.md R300 steps 1 and 2): the font is part of what
unlisted memory reads as, and no program is loaded (log 20, 24, 25, 27). -/
def State.reset : State where
  v := Vector.replicate 16 0
  idx := 0
  pc := 512
  stack := Vector.replicate 16 0
  sp := 0
  fb := Vector.replicate 32 0
  dirty := false
  dt := 0
  st := 0
  keys := Vector.replicate 16 false
  mem := []
  run := .running
  cause := .noFault
  faultPc := 0
  faultAddr := 0
  sched := .active
  phase := .tickStart
  draws := 0
  ticks := 0
  events := []

end Sys2Proof.Machine
end

