-- ==== Sys2Proof/Machine/Ops.lean ====
section
/-! DEFINITION. The named operations over memory, registers, the stack and the program counter, and taking a fault
(00_scope.md R12, R13, R14; 20_memory.md; 60_exceptions.md R262). -/

namespace Sys2Proof.Machine

/-! ### Memory -/

/-- What an address reads as when nothing has been written to it: `FONT_DATA` in the font region, which lies below 512,
and 0 elsewhere (20_memory.md R65, R69; log 10, 25). -/
def initialByte (a : Nat) : Byte :=
  if a < Config.romBase then
    if Config.fontBase.val ≤ a then Config.fontData.toList.getD (a - Config.fontBase.val) 0 else 0
  else 0

/-- The byte at an address (20_memory.md R69). -/
def Memory.read : Memory → Nat → Byte
  | [], a => initialByte a
  | (k, c) :: rest, a => if k = a then c else Memory.read rest a

/-- Writing one byte (20_memory.md R69). The list keeps its canonical form: a byte equal to what an unlisted address reads
as is not listed. -/
def Memory.write : Memory → Nat → Byte → Memory
  | [], a, b => if b = initialByte a then [] else [(a, b)]
  | (k, c) :: rest, a, b =>
    if a < k then (if b = initialByte a then (k, c) :: rest else (a, b) :: (k, c) :: rest)
    else if a = k then (if b = initialByte a then rest else (a, b) :: rest)
    else (k, c) :: Memory.write rest a b

/-- The canonical form from address `lo` on: addresses strictly rising and below 4096, no byte an unlisted address reads
as. -/
def Memory.wfFrom : Nat → Memory → Bool
  | _, [] => true
  | lo, (k, c) :: rest =>
    decide (lo ≤ k) && decide (k < Config.memSize) && decide (c ≠ initialByte k) && Memory.wfFrom (k + 1) rest

/-- The canonical form of memory: equal memories are equal lists. -/
def Memory.wf (m : Memory) : Bool := Memory.wfFrom 0 m

/-- The `n` bytes at `a`, `a + 1`, … in ascending order (20_memory.md R67). -/
def Memory.readRange (m : Memory) (a n : Nat) : List Byte := (List.range n).map fun j => m.read (a + j)

/-- Bytes written at `a`, `a + 1`, … in ascending order (20_memory.md R67). -/
def Memory.writeRange : Memory → Nat → List Byte → Memory
  | m, _, [] => m
  | m, a, b :: bs => Memory.writeRange (m.write a b) (a + 1) bs

/-- The bound of every access: `addr + n <= 4096` (20_memory.md R63). -/
def inBounds (a n : Nat) : Bool := decide (a + n ≤ Config.memSize)

/-- The byte at an address of the machine's memory. -/
def State.readByte (s : State) (a : Nat) : Byte := s.mem.read a

/-- `MemRead(addr, n)`: the bytes, or nothing where the range leaves memory (00_scope.md R13). -/
def State.memRead (s : State) (a n : Nat) : Option (List Byte) :=
  if inBounds a n then some (s.mem.readRange a n) else none

/-- `MemWrite(addr, n, v)`: the state with the bytes written, or nothing where the range leaves memory, tested before any
byte is written (00_scope.md R13, 20_memory.md R64). -/
def State.memWrite (s : State) (a : Nat) (bs : List Byte) : Option State :=
  if inBounds a bs.length then some { s with mem := s.mem.writeRange a bs } else none

/-! ### Registers -/

/-- `V[x]` (00_scope.md R12). -/
def State.reg (s : State) (x : Reg) : Byte := s.v[x]

/-- `V[x] <- b`, all 8 bits (10_state.md R21). -/
def State.setReg (s : State) (x : Reg) (b : Byte) : State := { s with v := s.v.set x b }

/-- `V[0]` to `V[x]` in ascending order (42_index_memory.md R164). -/
def State.regsUpTo (s : State) (x : Reg) : List Byte := s.v.toList.take (x.val + 1)

/-- `V[j] <- bs[j]` for every `j` below the length of `bs` (42_index_memory.md R165). -/
def State.loadRegs (s : State) (bs : List Byte) : State :=
  { s with v := Vector.ofFn fun j : Reg => bs.getD j.val s.v[j] }

/-- `I <- a` (00_scope.md R12). -/
def State.setIdx (s : State) (a : Word) : State := { s with idx := a }

/-! ### Program counter -/

/-- `PC <- t` (00_scope.md R12). -/
def State.jumpTo (s : State) (t : Word) : State := { s with pc := t }

/-- The default advance `PC <- PC + 2` (10_state.md R25). -/
def State.advance (s : State) : State := s.jumpTo (s.pc + 2)

/-- "skip next" means `PC <- PC + 4` where the condition holds, else `PC + 2` (40_control_flow.md R124, R128). -/
def State.skipIf (s : State) (c : Bool) : State := s.jumpTo (s.pc + if c then 4 else 2)

/-! ### Call stack -/

/-- `push`: fails with 16 entries on the stack (10_state.md R28, 40_control_flow.md R122). -/
def State.push (s : State) (a : Word) : Option State :=
  if h : s.sp.val < 16 then
    some { s with stack := s.stack.set s.sp.val a, sp := ⟨s.sp.val + 1, by omega⟩ }
  else none

/-- `pop`: fails on an empty stack; the freed entry keeps its value and is dead (10_state.md R28, R29,
40_control_flow.md R120). -/
def State.pop (s : State) : Option (Word × State) :=
  if h : 0 < s.sp.val then
    some (s.stack[s.sp.val - 1], { s with sp := ⟨s.sp.val - 1, by omega⟩ })
  else none

/-! ### Outputs -/

/-- Emitting an output event (47_scheduler.md R240; log 23). -/
def State.emit (s : State) (e : Event) : State := { s with events := e :: s.events }

/-! ### Taking a fault -/

/-- The 3-bit code of a cause (60_exceptions.md R261; log 13, 14). -/
def Cause.code : Cause → BitVec 3
  | .noFault => 0
  | .pcRange => 1
  | .memRange => 2
  | .stackOverflow => 3
  | .stackUnderflow => 4
  | .keyRange => 5

/-- Fault entry, `raise F(a)`: "exactly this and nothing more" (60_exceptions.md R262, 00_scope.md R14). `PC` keeps the
address of the faulting instruction. There is no return from a fault (R264). -/
def State.raise (s : State) (c : Cause) (addr : Word) : State :=
  { s with run := .halted, cause := c, faultPc := s.pc, faultAddr := addr }

/-! ### Fetching -/

/-- The instruction word at `PC`, high byte first (20_memory.md R66). -/
def State.fetchWord (s : State) : Word := wordOfBytes (s.readByte s.pc.toNat) (s.readByte (s.pc.toNat + 1))

/-- Whether `PC` allows a fetch: `PC + 2 <= 4096` (10_state.md R26). -/
def State.canFetch (s : State) : Bool := inBounds s.pc.toNat 2

/-- A word stored where the next fetch reads: at `PC`, or at 512 where `PC` allows no fetch (log 28). -/
def State.placeWord (s : State) (op : Word) : State :=
  let pc := if s.canFetch then s.pc else BitVec.ofNat 16 Config.romBase
  { s with pc := pc, mem := s.mem.writeRange pc.toNat (bytesOfWord op) }

end Sys2Proof.Machine
end

