-- ==== Sys2Proof/Machine/Boot.lean ====
section
/-! DEFINITION. Loading a program from outside, before the first tick (47_scheduler.md R241, 70_reset_and_hazards.md R300,
R301). The font is part of what unlisted memory reads as (log 10, 25). -/

namespace Sys2Proof.Machine

/-- `LoadRom`: byte `j` of the image goes to `MEM[512 + j]`; an image over 3584 bytes is a load failure, after which the
machine never starts (47_scheduler.md R241, 70_reset_and_hazards.md R301; log 24). -/
def State.loadRom (s : State) (image : List Byte) : Option State :=
  if image.length ≤ Config.romMax then some { s with mem := s.mem.writeRange Config.romBase image } else none

/-- The state before the first tick with a program loaded (70_reset_and_hazards.md R300). -/
def boot (image : List Byte) : Option State := State.reset.loadRom image

end Sys2Proof.Machine
end

