-- ==== Sys2Proof/Machine/Operands.lean ====
section
/-! DEFINITION. The operand forms: immediates met by wider values, the address `I + offset`, font addresses, decimal
digits, and keys (30_encoding.md R94, 42_index_memory.md R166, 44_keypad_timers.md R205). -/

namespace Sys2Proof.Machine

/-- `zext_16(nnn)`: an address immediate, never sign-extended or scaled (30_encoding.md R94). -/
def addrImm (nnn : BitVec 12) : Word := nnn.setWidth 16

/-- The first address of a data access, register indirect through `I` (42_index_memory.md R166). -/
def State.dataAddr (s : State) : Nat := s.idx.toNat

/-- `nnn + V[0]`, the exact 16-bit sum, not reduced (40_control_flow.md R123; log 7). -/
def State.offsetTarget (s : State) (nnn : BitVec 12) : Word := addrImm nnn + (s.reg 0).setWidth 16

/-- `(I + V[x]) mod 4096` (42_index_memory.md R161; log 8). -/
def State.indexSum (s : State) (x : Reg) : Word :=
  BitVec.ofNat 16 ((s.idx.toNat + (s.reg x).toNat) % Config.memSize)

/-- `FONT_BASE + 5 * V[x]`, the whole byte (42_index_memory.md R162; log 9). -/
def State.glyphAddr (s : State) (x : Reg) : Word :=
  BitVec.ofNat 16 (Config.fontBase.val + Config.glyphStride * (s.reg x).toNat)

/-- The three decimal digits, hundreds first (42_index_memory.md R163; log 12). -/
def bcdDigits (b : Byte) : List Byte :=
  [BitVec.ofNat 8 (b.toNat / 100), BitVec.ofNat 8 (b.toNat / 10 % 10), BitVec.ofNat 8 (b.toNat % 10)]

/-- The key a register names, if its value is a key number (44_keypad_timers.md R202). -/
def keyOf (b : Byte) : Option (Fin 16) := if h : b.toNat < 16 then some ⟨b.toNat, h⟩ else none

/-- Whether the latch holds a key as pressed (47_scheduler.md R244). -/
def State.keyPressed (s : State) (k : Fin 16) : Bool := s.keys[k]

/-- `FirstPressed()`: the smallest pressed key of the latch (44_keypad_timers.md R205; log 15). -/
def State.firstPressed (s : State) : Option (Fin 16) := (List.finRange 16).find? fun k => s.keyPressed k

end Sys2Proof.Machine
end

