-- ==== Sys2Proof/Machine/ControlFlow.lean ====
section
/-! DEFINITION. Control flow (40_control_flow.md). -/

namespace Sys2Proof.Machine

/-- `00EE` RET (R120). -/
def execRet (s : State) : Result :=
  match s.pop with
  | none => .next (s.raise .stackUnderflow 0)
  | some (target, t) => .next (t.jumpTo target)

/-- `1nnn` JP addr (R121). -/
def execJp (nnn : BitVec 12) (s : State) : Result := .next (s.jumpTo (addrImm nnn))

/-- `2nnn` CALL addr: pushes the address after the call (R122; log 5). -/
def execCall (nnn : BitVec 12) (s : State) : Result :=
  match s.push (s.pc + 2) with
  | none => .next (s.raise .stackOverflow 0)
  | some t => .next (t.jumpTo (addrImm nnn))

/-- `Bnnn` JP V0, addr (R123). -/
def execJpV0 (nnn : BitVec 12) (s : State) : Result := .next (s.jumpTo (s.offsetTarget nnn))

/-- `3xkk` SE Vx, byte (R124). -/
def execSeImm (x : Reg) (kk : Byte) (s : State) : Result := .next (s.skipIf (s.reg x == kk))

/-- `4xkk` SNE Vx, byte (R125). -/
def execSneImm (x : Reg) (kk : Byte) (s : State) : Result := .next (s.skipIf (s.reg x != kk))

/-- `5xy0` SE Vx, Vy (R126). -/
def execSeReg (x y : Reg) (s : State) : Result := .next (s.skipIf (s.reg x == s.reg y))

/-- `9xy0` SNE Vx, Vy (R127). -/
def execSneReg (x y : Reg) (s : State) : Result := .next (s.skipIf (s.reg x != s.reg y))

end Sys2Proof.Machine
end

