-- ==== Sys2Proof/Machine/Flags.lean ====
section
/-! DEFINITION. The flag computations: VF is the only flag (10_state.md R38), written before the destination from operands
read before any write (41_load_alu.md R146). -/

namespace Sys2Proof.Machine

/-- The byte VF takes for a flag: `0x01` or `0x00` (10_state.md R38). -/
def flagByte (f : Bool) : Byte := if f then 1 else 0

/-- Carry: `a + b > 255` (41_load_alu.md R147). -/
def carryFlag (a b : Byte) : Bool := decide (a.toNat + b.toNat > 255)

/-- Not-borrow of `a - b`: `a >= b` (41_load_alu.md R148). -/
def noBorrowFlag (a b : Byte) : Bool := decide (a.toNat ≥ b.toNat)

/-- The bit a right shift moves out: `a & 1` (41_load_alu.md R149). -/
def lowBitFlag (a : Byte) : Bool := a.getLsbD 0

/-- The bit a left shift moves out: `(a & 0x80) != 0` (41_load_alu.md R151). -/
def highBitFlag (a : Byte) : Bool := a.getLsbD 7

/-- `VF <- flag` (10_state.md R38). -/
def State.setFlag (s : State) (f : Bool) : State := s.setReg VF (flagByte f)

/-- Steps 3 and 4 of 41_load_alu.md R146: the flag into VF, then the result into `V[x]`, so that for `x = 15` the result
stays; then the advance. -/
def State.writeFlagged (s : State) (x : Reg) (flag : Bool) (result : Byte) : State :=
  ((s.setFlag flag).setReg x result).advance

end Sys2Proof.Machine
end

