-- ==== Sys2Proof/Machine/Display.lean ====
section
/-! DEFINITION. The framebuffer and the display instructions (43_display.md). -/

namespace Sys2Proof.Machine

/-- `FB[r][c]` (10_state.md R30; log 26). -/
def Framebuffer.pixel (fb : Framebuffer) (r : Fin 32) (c : Fin 64) : Bool := fb[r].getLsbD c.val

/-- `FB[r][c] <- FB[r][c] ^ 1` (R181). -/
def Framebuffer.flip (fb : Framebuffer) (r : Fin 32) (c : Fin 64) : Framebuffer :=
  fb.set r (fb[r] ^^^ BitVec.twoPow 64 c.val)

/-- One sprite bit `s` at one pixel: a set bit reports a lit pixel as a collision and flips it (R181). -/
def drawPixel (acc : Framebuffer × Bool) (r : Fin 32) (c : Fin 64) (s : Bool) : Framebuffer × Bool :=
  if s then (acc.1.flip r c, acc.2 || acc.1.pixel r c) else acc

/-- One sprite row: `bit = 0` is the byte's bit 7, columns modulo 64 (R181; log 11). -/
def drawRow (acc : Framebuffer × Bool) (b : Byte) (x0 : Byte) (r : Fin 32) : Framebuffer × Bool :=
  (List.range 8).foldl (fun acc bit => drawPixel acc r (Fin.ofNat 64 (x0.toNat + bit)) (b.getLsbD (7 - bit))) acc

/-- The sprite rows from vertical position `y` down, rows modulo 32 (R181). -/
def drawRows (acc : Framebuffer × Bool) (x0 : Byte) (y : Nat) : List Byte → Framebuffer × Bool
  | [] => acc
  | b :: bs => drawRows (drawRow acc b x0 (Fin.ofNat 32 y)) x0 (y + 1) bs

/-- `DrawSprite(rows, x0, y0)`: the framebuffer after the draw, and the collision (R181). -/
def drawSprite (fb : Framebuffer) (rows : List Byte) (x0 y0 : Byte) : Framebuffer × Bool :=
  drawRows (fb, false) x0 y0.toNat rows

/-- A changed framebuffer marks the display dirty (10_state.md R30, R185). -/
def State.setDisplay (s : State) (fb : Framebuffer) : State := { s with fb := fb, dirty := true }

/-- `00E0` CLS (R180). -/
def execCls (s : State) : Result := .next (s.setDisplay (Vector.replicate 32 0)).advance

/-- `Dxyn` DRW Vx, Vy, nibble: the position is read before VF is written, nothing changes where the sprite leaves memory
(R182). -/
def execDrw (x y : Reg) (n : Fin 16) (s : State) : Result :=
  match s.memRead s.dataAddr n.val with
  | none => .next (s.raise .memRange s.idx)
  | some rows =>
    let drawn := drawSprite s.fb rows (s.reg x) (s.reg y)
    .next ((s.setDisplay drawn.1).setFlag drawn.2).advance

/-- `present`: emits the bitmap if dirty, and cleans the flag (R186). -/
def State.present (s : State) : State :=
  if s.dirty then { s.emit (.present s.fb) with dirty := false } else s

end Sys2Proof.Machine
end

