-- ==== Sys2Proof/Machine/IndexMemory.lean ====
section
/-! DEFINITION. Index register and memory (42_index_memory.md). -/

namespace Sys2Proof.Machine

/-- `Annn` LD I, addr (R160). -/
def execLdI (nnn : BitVec 12) (s : State) : Result := .next (s.setIdx (addrImm nnn)).advance

/-- `Fx1E` ADD I, Vx: modulo 4096, VF is not written (R161; log 8). -/
def execAddI (x : Reg) (s : State) : Result := .next (s.setIdx (s.indexSum x)).advance

/-- `Fx29` LD F, Vx (R162; log 9). -/
def execLdF (x : Reg) (s : State) : Result := .next (s.setIdx (s.glyphAddr x)).advance

/-- A store of bytes at `I`: `MemRange(I)` where the range leaves memory, with nothing written (R163, R164). -/
def State.storeAtIdx (s : State) (bs : List Byte) : State :=
  match s.memWrite s.dataAddr bs with
  | none => s.raise .memRange s.idx
  | some t => t.advance

/-- `Fx33` LD B, Vx (R163; log 12). -/
def execLdB (x : Reg) (s : State) : Result := .next (s.storeAtIdx (bcdDigits (s.reg x)))

/-- `Fx55` LD [I], Vx: `I` is not changed (R164; log 12). -/
def execStRegs (x : Reg) (s : State) : Result := .next (s.storeAtIdx (s.regsUpTo x))

/-- `Fx65` LD Vx, [I]: `I` is not changed; `MemRange(I)` where the range leaves memory, with nothing loaded (R165; log 12). -/
def execLdRegs (x : Reg) (s : State) : Result :=
  match s.memRead s.dataAddr (x.val + 1) with
  | none => .next (s.raise .memRange s.idx)
  | some bs => .next (s.loadRegs bs).advance

end Sys2Proof.Machine
end

