-- ==== Sys2Proof/Machine/KeypadTimers.lean ====
section
/-! DEFINITION. Keypad and timer instructions (44_keypad_timers.md). -/

namespace Sys2Proof.Machine

/-- `Ex9E` SKP Vx: `KeyRange` above key 15 (R200, R202; log 14). -/
def execSkp (x : Reg) (s : State) : Result :=
  match keyOf (s.reg x) with
  | none => .next (s.raise .keyRange 0)
  | some k => .next (s.skipIf (s.keyPressed k))

/-- `ExA1` SKNP Vx: `KeyRange` above key 15 (R201, R202; log 14). -/
def execSknp (x : Reg) (s : State) : Result :=
  match keyOf (s.reg x) with
  | none => .next (s.raise .keyRange 0)
  | some k => .next (s.skipIf (!s.keyPressed k))

/-- `Fx07` LD Vx, DT (R203). -/
def execLdVxDt (x : Reg) (s : State) : Result := .next (s.setReg x s.dt).advance

/-- `Fx0A` LD Vx, K: with no key pressed the step changes nothing and the instruction runs again (R204; log 15). -/
def execLdVxK (x : Reg) (s : State) : Result :=
  match s.firstPressed with
  | none => .next s
  | some k => .next (s.setReg x (BitVec.ofNat 8 k.val)).advance

/-- `Fx15` LD DT, Vx (R206). -/
def execLdDtVx (x : Reg) (s : State) : Result := .next { s with dt := s.reg x }.advance

/-- `Fx18` LD ST, Vx (R207). -/
def execLdStVx (x : Reg) (s : State) : Result := .next { s with st := s.reg x }.advance

end Sys2Proof.Machine
end

