-- ==== Sys2Proof/Machine/LoadAlu.lean ====
section
/-! DEFINITION. Load, arithmetic and logic (41_load_alu.md). -/

namespace Sys2Proof.Machine

/-- `6xkk` LD Vx, byte (R140). -/
def execLdImm (x : Reg) (kk : Byte) (s : State) : Result := .next (s.setReg x kk).advance

/-- `7xkk` ADD Vx, byte: wraps, no flag (R141). -/
def execAddImm (x : Reg) (kk : Byte) (s : State) : Result := .next (s.setReg x (s.reg x + kk)).advance

/-- `8xy0` LD Vx, Vy (R142). -/
def execLdReg (x y : Reg) (s : State) : Result := .next (s.setReg x (s.reg y)).advance

/-- `8xy1` OR Vx, Vy: VF is not written (R143; log 4). -/
def execOrReg (x y : Reg) (s : State) : Result := .next (s.setReg x (s.reg x ||| s.reg y)).advance

/-- `8xy2` AND Vx, Vy: VF is not written (R144; log 4). -/
def execAndReg (x y : Reg) (s : State) : Result := .next (s.setReg x (s.reg x &&& s.reg y)).advance

/-- `8xy3` XOR Vx, Vy: VF is not written (R145; log 4). -/
def execXorReg (x y : Reg) (s : State) : Result := .next (s.setReg x (s.reg x ^^^ s.reg y)).advance

/-- `8xy4` ADD Vx, Vy (R147). -/
def execAddReg (x y : Reg) (s : State) : Result :=
  .next (s.writeFlagged x (carryFlag (s.reg x) (s.reg y)) (s.reg x + s.reg y))

/-- `8xy5` SUB Vx, Vy (R148). -/
def execSubReg (x y : Reg) (s : State) : Result :=
  .next (s.writeFlagged x (noBorrowFlag (s.reg x) (s.reg y)) (s.reg x - s.reg y))

/-- `8xy6` SHR Vx: the `y` field is not used (R149). -/
def execShr (x _y : Reg) (s : State) : Result :=
  .next (s.writeFlagged x (lowBitFlag (s.reg x)) (s.reg x >>> 1))

/-- `8xy7` SUBN Vx, Vy (R150). -/
def execSubn (x y : Reg) (s : State) : Result :=
  .next (s.writeFlagged x (noBorrowFlag (s.reg y) (s.reg x)) (s.reg y - s.reg x))

/-- `8xyE` SHL Vx: the `y` field is not used (R151). -/
def execShl (x _y : Reg) (s : State) : Result :=
  .next (s.writeFlagged x (highBitFlag (s.reg x)) (s.reg x <<< 1))

/-- The draw of one random byte: the next value of the free input stream (R153, 47_scheduler.md R245; log 17). -/
def State.drawRand (s : State) : Byte × State := (Config.randByte s.draws, { s with draws := s.draws + 1 })

/-- What `Cxkk` does with a drawn byte `r`: `V[x] <- r & kk` (R153). -/
def State.storeMasked (s : State) (x : Reg) (r kk : Byte) : State := (s.setReg x (r &&& kk)).advance

/-- `Cxkk` RND Vx, byte (R153). -/
def execRnd (x : Reg) (kk : Byte) (s : State) : Result :=
  .next (s.drawRand.2.storeMasked x s.drawRand.1 kk)

end Sys2Proof.Machine
end

