-- ==== Sys2Proof/Machine/Unknown.lean ====
section
/-! DEFINITION. The unknown-opcode default arm (45_unknown_opcode.md). -/

namespace Sys2Proof.Machine

/-- An unknown opcode is reported and skipped (R220, R221; log 22). -/
def execDw (word : Word) (s : State) : Result := .next (s.emit (.unknownOpcode s.pc word)).advance

end Sys2Proof.Machine
end

