-- ==== Sys2Proof/Machine/Scheduler.lean ====
section
/-! DEFINITION. The engine step and the scheduler tick (47_scheduler.md R231, R234). A tick is the sequence of its start,
its batch of engine steps and its end, one machine step each (log 19). -/

namespace Sys2Proof.Machine

/-- `Step()`: nothing when halted; `PcRange` where the fetch leaves memory; else fetch, decode and execute (R230, R231). -/
def engineStep (s : State) : Result :=
  match s.run with
  | .halted => .next s
  | .running => if s.canFetch then exec (decode s.fetchWord) s else .next (s.raise .pcRange s.pc)

/-- A timer's decrement, never below 0 (R235). -/
def timerTick (b : Byte) : Byte := if b = 0 then 0 else b - 1

/-- The start of a tick: both timers decrement (R234, R235). -/
def State.decTimers (s : State) : State := { s with dt := timerTick s.dt, st := timerTick s.st }

/-- The start of a tick of `lessOne + 1` engine steps, or the stop that a request between two ticks brings, which changes
nothing but `SCHED` (R234, R238; log 21). -/
def State.beginTick (s : State) (stop : Bool) (lessOne : Nat) : State :=
  if stop then { s with sched := .stopped } else { s.decTimers with phase := .engine lessOne }

/-- Whether a stop request has arrived: only "between two ticks", so not before the first (R238; log 21). -/
def State.stopRequested (s : State) : Bool := decide (s.ticks ≠ 0) && Config.stopRequest s.ticks

/-- After an engine step with `more` steps of the batch to follow (R234). -/
def State.endCycle (s : State) (more : Nat) : State :=
  { s with phase := match more with
                    | 0 => .tickEnd
                    | m + 1 => .engine m }

/-- The key latch `KEYS <- KEYS_IN` (R236). -/
def State.latchKeys (s : State) (sample : Keys) : State := { s with keys := sample }

/-- The tick in which the engine halted is the last (R238). -/
def State.stopIfHalted (s : State) : State :=
  match s.run with
  | .halted => { s with sched := .stopped }
  | .running => s

/-- The end of a tick: latch, present, stop if halted (R234). -/
def State.endTick (s : State) (sample : Keys) : State :=
  let t := (s.latchKeys sample).present.stopIfHalted
  { t with phase := .tickStart, ticks := t.ticks + 1 }

/-- One machine step: what the position in the tick says comes next; nothing runs once the scheduler has stopped
(R234, R238; log 19, 21). -/
def schedule (s : State) : Result :=
  match s.sched with
  | .stopped => .next s
  | .active =>
    match s.phase with
    | .tickStart => .next (s.beginTick s.stopRequested Config.cyclesPerTickLessOne)
    | .tickEnd => .next (s.endTick (Config.keysIn s.ticks))
    | .engine more =>
      match engineStep s with
      | .next t => .next (t.endCycle more)
      | .fault f => .fault f
      | .refused r => .refused r

/-- The position in which the next machine step is an engine step: kept where it is one, else the last of a batch, which
every batch has (log 28). -/
def Phase.toEngine : Phase → Phase
  | .engine more => .engine more
  | .tickStart => .engine 0
  | .tickEnd => .engine 0

/-- A running machine whose next step fetches `op` (log 24, 28). -/
def State.readyToRun (s : State) (op : Word) : State :=
  { s.placeWord op with run := .running, sched := .active, phase := s.phase.toEngine }

end Sys2Proof.Machine
end

