-- ==== Sys2Proof/Machine/Step.lean ====
section
/-! DEFINITION. The machine's step, and placing the word it runs next. -/

namespace Sys2Proof.Machine

/-- One step of the machine (47_scheduler.md R231, R234). -/
def step (s : State) : Host.Outcome State Fault Refusal := schedule s

/-- The state whose very next step fetches and runs the table word `w` (log 24, 28). -/
def State.withFetchWord (s : State) (nbits w : Nat) : State := s.readyToRun (tableWord nbits w)

end Sys2Proof.Machine
end

