-- ==== Sys2Proof/Safety.lean ====
section
/-! DEFINITION. The terms claims are stated in: which parts of the state a step may change, the fault table, where each
instruction leaves `PC`, the pixels of a sprite, a whole tick, and the invariant of the machine. No step calls them. -/

namespace Sys2Proof.Machine

/-! ### Frames -/

/-- The parts of the state a frame names. -/
inductive Part
  /-- `V[0..15]` -/
  | regs
  /-- `I` -/
  | idx
  /-- `PC` -/
  | pc
  /-- `STACK` and `SP` -/
  | stack
  /-- `FB` and `DIRTY` -/
  | display
  /-- `DT` -/
  | dt
  /-- `ST` -/
  | st
  /-- `KEYS` -/
  | keys
  /-- `MEM` -/
  | mem
  /-- `RUN` and the fault record -/
  | fault
  /-- `SCHED` -/
  | sched
  /-- the position in the tick -/
  | phase
  /-- the model's counter of random draws -/
  | draws
  /-- the model's counter of ticks -/
  | ticks
  /-- the model's record of outputs -/
  | events
deriving DecidableEq, Repr

/-- A part is the same in two states; memory is compared through the read of one byte. -/
def SamePart (s t : State) : Part → Prop
  | .regs => ∀ r, t.reg r = s.reg r
  | .idx => t.idx = s.idx
  | .pc => t.pc = s.pc
  | .stack => t.sp = s.sp ∧ ∀ k : Fin 16, t.stack[k] = s.stack[k]
  | .display => t.dirty = s.dirty ∧ ∀ r c, t.fb.pixel r c = s.fb.pixel r c
  | .dt => t.dt = s.dt
  | .st => t.st = s.st
  | .keys => ∀ k, t.keyPressed k = s.keyPressed k
  | .mem => ∀ a, t.readByte a = s.readByte a
  | .fault => t.run = s.run ∧ t.cause = s.cause ∧ t.faultPc = s.faultPc ∧ t.faultAddr = s.faultAddr
  | .sched => t.sched = s.sched
  | .phase => t.phase = s.phase
  | .draws => t.draws = s.draws
  | .ticks => t.ticks = s.ticks
  | .events => t.events = s.events

/-- Everything but the named parts is the same in `t` as in `s`. -/
def KeepsExcept (ps : List Part) (s t : State) : Prop := ∀ p : Part, p ∉ ps → SamePart s t p

/-- The parts of the state an instruction may change when it takes no fault (10_state.md R22, R24, R28, R30, R31, R32,
R36, 20_memory.md R61). -/
def footprint : Instr → List Part
  | .jp _ | .jpV0 _ | .seImm _ _ | .sneImm _ _ | .seReg _ _ | .sneReg _ _ | .skp _ | .sknp _ => [.pc]
  | .ret | .call _ => [.pc, .stack]
  | .ldImm _ _ | .addImm _ _ | .ldReg _ _ | .orReg _ _ | .andReg _ _ | .xorReg _ _ | .addReg _ _ | .subReg _ _
  | .shr _ _ | .subn _ _ | .shl _ _ | .ldVxDt _ | .ldVxK _ | .ldRegs _ => [.pc, .regs]
  | .rnd _ _ => [.pc, .regs, .draws]
  | .ldI _ | .addI _ | .ldF _ => [.pc, .idx]
  | .ldB _ | .stRegs _ => [.pc, .mem]
  | .cls => [.pc, .display]
  | .drw _ _ _ => [.pc, .regs, .display]
  | .ldDtVx _ => [.pc, .dt]
  | .ldStVx _ => [.pc, .st]
  | .dw _ => [.pc, .events]

/-- Whether an instruction may write a general register when it takes no fault (10_state.md R22, R38). -/
def mayWrite : Instr → Reg → Bool
  | .ldImm x _ | .addImm x _ | .ldReg x _ | .orReg x _ | .andReg x _ | .xorReg x _ | .rnd x _ | .ldVxDt x
  | .ldVxK x => fun r => r == x
  | .addReg x _ | .subReg x _ | .shr x _ | .subn x _ | .shl x _ => fun r => r == x || r == VF
  | .drw _ _ _ => fun r => r == VF
  | .ldRegs x => fun r => decide (r.val ≤ x.val)
  | .cls | .ret | .jp _ | .call _ | .seImm _ _ | .sneImm _ _ | .seReg _ _ | .sneReg _ _ | .ldI _ | .jpV0 _ | .skp _
  | .sknp _ | .ldDtVx _ | .ldStVx _ | .addI _ | .ldF _ | .ldB _ | .stRegs _ | .dw _ => fun _ => false

/-- The result of an instruction that writes one general register and advances: nothing else changes. -/
structure RegResult (s t : State) (x : Reg) (b : Byte) : Prop where
  dest : t.reg x = b
  others : ∀ r, r ≠ x → t.reg r = s.reg r
  pc : t.pc = s.pc + 2
  frame : KeepsExcept [.regs, .pc] s t

/-- The result of a flag-writing instruction (41_load_alu.md R146): with `x = 15` VF ends as the result. -/
structure FlaggedResult (s t : State) (x : Reg) (flag : Prop) (b : Byte) : Prop where
  dest : t.reg x = b
  flag_set : x ≠ VF → flag → t.reg VF = 1
  flag_clear : x ≠ VF → ¬ flag → t.reg VF = 0
  others : ∀ r, r ≠ x → r ≠ VF → t.reg r = s.reg r
  pc : t.pc = s.pc + 2
  frame : KeepsExcept [.regs, .pc] s t

/-! ### The fault table -/

/-- The fault an instruction takes in a state, with its `FAULT_ADDR`: the table of 60_exceptions.md R261 (`PcRange` is the
fetch's). -/
def faultOf : Instr → State → Option (Cause × Word)
  | .ret, s => if s.sp.val = 0 then some (.stackUnderflow, 0) else none
  | .call _, s => if s.sp.val = 16 then some (.stackOverflow, 0) else none
  | .drw _ _ n, s => if s.idx.toNat + n.val > 4096 then some (.memRange, s.idx) else none
  | .ldB _, s => if s.idx.toNat + 3 > 4096 then some (.memRange, s.idx) else none
  | .stRegs x, s | .ldRegs x, s => if s.idx.toNat + x.val + 1 > 4096 then some (.memRange, s.idx) else none
  | .skp x, s | .sknp x, s => if (s.reg x).toNat > 15 then some (.keyRange, 0) else none
  | .cls, _ | .jp _, _ | .seImm _ _, _ | .sneImm _ _, _ | .seReg _ _, _ | .ldImm _ _, _ | .addImm _ _, _ | .ldReg _ _, _
  | .orReg _ _, _ | .andReg _ _, _ | .xorReg _ _, _ | .addReg _ _, _ | .subReg _ _, _ | .shr _ _, _ | .subn _ _, _
  | .shl _ _, _ | .sneReg _ _, _ | .ldI _, _ | .jpV0 _, _ | .rnd _ _, _ | .ldVxDt _, _ | .ldVxK _, _ | .ldDtVx _, _
  | .ldStVx _, _ | .addI _, _ | .ldF _, _ | .dw _, _ => none

/-- The code `CAUSE` reads as after an instruction's own fault: the numbers of 60_exceptions.md R261 (log 13, 14), 0 for an
instruction that has none. -/
def faultCode : Instr → BitVec 3
  | .drw _ _ _ | .ldB _ | .stRegs _ | .ldRegs _ => 2
  | .call _ => 3
  | .ret => 4
  | .skp _ | .sknp _ => 5
  | .cls | .jp _ | .seImm _ _ | .sneImm _ _ | .seReg _ _ | .ldImm _ _ | .addImm _ _ | .ldReg _ _ | .orReg _ _
  | .andReg _ _ | .xorReg _ _ | .addReg _ _ | .subReg _ _ | .shr _ _ | .subn _ _ | .shl _ _ | .sneReg _ _ | .ldI _
  | .jpV0 _ | .rnd _ _ | .ldVxDt _ | .ldVxK _ | .ldDtVx _ | .ldStVx _ | .addI _ | .ldF _ | .dw _ => 0

/-- Fault entry as a relation of states (60_exceptions.md R262): the four registers, and nothing else. -/
def TakesFault (c : Cause) (addr : Word) (s t : State) : Prop :=
  t.run = .halted ∧ t.cause = c ∧ t.faultPc = s.pc ∧ t.faultAddr = addr ∧ KeepsExcept [.fault] s t

/-! ### The program counter -/

/-- Where an instruction leaves `PC` when it takes no fault: the table of 40_control_flow.md R129. -/
def pcAfter : Instr → State → Nat
  | .ret, s => (s.stack.toList.getD (s.sp.val - 1) 0).toNat
  | .jp nnn, _ | .call nnn, _ => nnn.toNat
  | .jpV0 nnn, s => nnn.toNat + (s.reg 0).toNat
  | .seImm x kk, s => s.pc.toNat + if s.reg x = kk then 4 else 2
  | .sneImm x kk, s => s.pc.toNat + if s.reg x = kk then 2 else 4
  | .seReg x y, s => s.pc.toNat + if s.reg x = s.reg y then 4 else 2
  | .sneReg x y, s => s.pc.toNat + if s.reg x = s.reg y then 2 else 4
  | .skp x, s => s.pc.toNat + if s.keys.toList.getD (s.reg x).toNat false then 4 else 2
  | .sknp x, s => s.pc.toNat + if s.keys.toList.getD (s.reg x).toNat false then 2 else 4
  | .ldVxK _, s => s.pc.toNat + if ∃ k, s.keyPressed k = true then 2 else 0
  | .cls, s | .ldImm _ _, s | .addImm _ _, s | .ldReg _ _, s | .orReg _ _, s | .andReg _ _, s | .xorReg _ _, s
  | .addReg _ _, s | .subReg _ _, s | .shr _ _, s | .subn _ _, s | .shl _ _, s | .ldI _, s | .rnd _ _, s | .drw _ _ _, s
  | .ldVxDt _, s | .ldDtVx _, s | .ldStVx _, s | .addI _, s | .ldF _, s | .ldB _, s | .stRegs _, s | .ldRegs _, s
  | .dw _, s => s.pc.toNat + 2

/-! ### Sprites -/

/-- Whether a sprite drawn at `(x0, y0)` has a set bit on the pixel of row `r` and column `c` (43_display.md R181, R183;
log 11): the pixel's distances below and right of the sprite's corner, modulo the screen, pick the row and the bit. -/
def spritePixel (rows : List Byte) (x0 y0 : Byte) (r : Fin 32) (c : Fin 64) : Bool :=
  let i := (r.val + 32 - y0.toNat % 32) % 32
  let j := (c.val + 64 - x0.toNat % 64) % 64
  decide (j < 8) && (rows.getD i 0).getLsbD (7 - j)

/-! ### The scheduler tick -/

/-- `repeat n times: Step()` (47_scheduler.md R234). -/
def runCycles : Nat → State → Result
  | 0, s => .next s
  | n + 1, s =>
    match engineStep s with
    | .next t => runCycles n t
    | .fault f => .fault f
    | .refused r => .refused r

/-- `Tick()` as one function (47_scheduler.md R234): decrement, `CYCLES_PER_TICK` steps, latch, present, stop if halted. -/
def tick (s : State) : Result :=
  match runCycles Config.cyclesPerTick s.decTimers with
  | .next t =>
    .next { ((t.latchKeys (Config.keysIn t.ticks)).present.stopIfHalted) with ticks := t.ticks + 1 }
  | .fault f => .fault f
  | .refused r => .refused r

/-! ### The invariant -/

/-- What a halted machine's cause says of its state (60_exceptions.md R261, R262). -/
def State.causeHolds (s : State) : Prop :=
  match s.cause with
  | .noFault => False
  | .pcRange => 4095 ≤ s.pc.toNat ∧ s.faultAddr = s.pc
  | .memRange => s.pc.toNat ≤ 4094 ∧ s.faultAddr = s.idx
  | .stackOverflow => s.pc.toNat ≤ 4094 ∧ s.sp.val = 16 ∧ s.faultAddr = 0
  | .stackUnderflow => s.pc.toNat ≤ 4094 ∧ s.sp.val = 0 ∧ s.faultAddr = 0
  | .keyRange => s.pc.toNat ≤ 4094 ∧ s.faultAddr = 0

/-- The invariant of the machine: it holds after reset and every step keeps it. -/
structure State.Inv (s : State) : Prop where
  /-- memory is in canonical form -/
  mem_wf : s.mem.wf = true
  /-- "0 <= I <= 4095" (10_state.md R24) -/
  idx_le : s.idx.toNat ≤ 4095
  /-- the largest value any rule writes to `PC` is 4350 (10_state.md R26) -/
  pc_le : s.pc.toNat ≤ 4350
  /-- a live stack entry is an address a call pushed, 2..4096 (40_control_flow.md R120) -/
  live : ∀ k : Fin 16, k.val < s.sp.val → 2 ≤ s.stack[k].toNat ∧ s.stack[k].toNat ≤ 4096
  /-- a running machine has no fault recorded (10_state.md R35, 60_exceptions.md R261) -/
  running_record : s.run = .running → s.cause = .noFault ∧ s.faultPc = 0 ∧ s.faultAddr = 0
  /-- a halted machine stands at the faulting instruction, for the recorded cause (60_exceptions.md R262) -/
  halted_record : s.run = .halted → s.faultPc = s.pc ∧ s.causeHolds
  /-- fewer than `CYCLES_PER_TICK` steps are left after the next (47_scheduler.md R234) -/
  batch : ∀ more, s.phase = .engine more → more < Config.cyclesPerTick
  /-- the scheduler stops between ticks (10_state.md R36) -/
  stopped_between : s.sched = .stopped → s.phase = .tickStart
  /-- no tick starts after the one in which the engine halted (47_scheduler.md R238) -/
  halt_stops : s.sched = .active → s.run = .halted → s.phase ≠ .tickStart

/-- Two states that no program can tell apart: they differ at most in `ST`, `DIRTY`, dead stack entries and the record of
outputs (10_state.md R29, R31, R40, 45_unknown_opcode.md R221). -/
structure Alike (s t : State) : Prop where
  regs : t.v = s.v
  idx : t.idx = s.idx
  pc : t.pc = s.pc
  sp : t.sp = s.sp
  live : ∀ k : Fin 16, k.val < s.sp.val → t.stack[k] = s.stack[k]
  fb : t.fb = s.fb
  dt : t.dt = s.dt
  keys : t.keys = s.keys
  mem : t.mem = s.mem
  run : t.run = s.run
  cause : t.cause = s.cause
  faultPc : t.faultPc = s.faultPc
  faultAddr : t.faultAddr = s.faultAddr
  sched : t.sched = s.sched
  phase : t.phase = s.phase
  draws : t.draws = s.draws
  ticks : t.ticks = s.ticks

end Sys2Proof.Machine
end

