-- ==== Sys2Proof/Certificates/Slice0/Obligations.lean ====
section
/-! DEFINITION. The statements for the provers. A state is any state of the model unless a hypothesis says otherwise. -/

open Sys2Proof Sys2Proof.Machine

/-! ### Encoding -/

/-- Decoding the encoding of a well-formed instruction gives it back, for every operand value (30_encoding.md R93, R96;
the words of rows 1 and 2 and the codes of row `8xyn` are the spec's decisions D1 and D3, log 2 and 3). -/
def Obligations.DecodeInvertsEncode : Prop :=
  ∀ i : Instr, i.wellFormed = true → decode (encode i) = i

/-- Every word decodes to a well-formed instruction, and encodes back to itself (30_encoding.md R92). -/
def Obligations.EncodeInvertsDecode : Prop :=
  ∀ op : Word, (decode op).wellFormed = true ∧ encode (decode op) = op

/-- Nibble dispatch is the mask and match table: a word is the instruction of a row iff the row covers it, no two rows
overlap, and a word of no row is the default arm (30_encoding.md R95, R96; rows 1, 2 and 10 to 18 are the spec's decisions D1
and D3, log 2 and 3). -/
def Obligations.DispatchFollowsMaskAndMatch : Prop :=
  (∀ op r, r ∈ opcodeRows → (r.covers op = true ↔ (decode op).row = r)) ∧
  (opcodeRows.Pairwise fun a b => ∀ op, ¬ (a.covers op = true ∧ b.covers op = true)) ∧
  (∀ op, (∀ r ∈ opcodeRows, r.covers op = false) ↔ decode op = .dw op)

/-- The fields of a word by place value (00_scope.md R11). -/
def Obligations.FieldsByPlaceValue : Prop :=
  ∀ op : Word, (wField op).toNat = op.toNat / 4096 ∧ (xField op).val = op.toNat / 256 % 16 ∧
    (yField op).val = op.toNat / 16 % 16 ∧ (nField op).toNat = op.toNat % 16 ∧ (kkField op).toNat = op.toNat % 256 ∧
    (nnnField op).toNat = op.toNat % 4096

/-- The word of every instruction as a number, operand by operand (30_encoding.md R91, R93, R96; decisions D1 and D3, log
2 and 3). -/
def Obligations.EncodingByPlaceValue : Prop :=
  (encode .cls).toNat = 0x00E0 ∧ (encode .ret).toNat = 0x00EE ∧
  (∀ nnn : BitVec 12, (encode (.jp nnn)).toNat = 0x1000 + nnn.toNat ∧
    (encode (.call nnn)).toNat = 0x2000 + nnn.toNat ∧ (encode (.ldI nnn)).toNat = 0xA000 + nnn.toNat ∧
    (encode (.jpV0 nnn)).toNat = 0xB000 + nnn.toNat) ∧
  (∀ (x : Reg) (kk : Byte), (encode (.seImm x kk)).toNat = 0x3000 + 256 * x.val + kk.toNat ∧
    (encode (.sneImm x kk)).toNat = 0x4000 + 256 * x.val + kk.toNat ∧
    (encode (.ldImm x kk)).toNat = 0x6000 + 256 * x.val + kk.toNat ∧
    (encode (.addImm x kk)).toNat = 0x7000 + 256 * x.val + kk.toNat ∧
    (encode (.rnd x kk)).toNat = 0xC000 + 256 * x.val + kk.toNat) ∧
  (∀ x y : Reg, (encode (.seReg x y)).toNat = 0x5000 + 256 * x.val + 16 * y.val ∧
    (encode (.ldReg x y)).toNat = 0x8000 + 256 * x.val + 16 * y.val ∧
    (encode (.orReg x y)).toNat = 0x8001 + 256 * x.val + 16 * y.val ∧
    (encode (.andReg x y)).toNat = 0x8002 + 256 * x.val + 16 * y.val ∧
    (encode (.xorReg x y)).toNat = 0x8003 + 256 * x.val + 16 * y.val ∧
    (encode (.addReg x y)).toNat = 0x8004 + 256 * x.val + 16 * y.val ∧
    (encode (.subReg x y)).toNat = 0x8005 + 256 * x.val + 16 * y.val ∧
    (encode (.shr x y)).toNat = 0x8006 + 256 * x.val + 16 * y.val ∧
    (encode (.subn x y)).toNat = 0x8007 + 256 * x.val + 16 * y.val ∧
    (encode (.shl x y)).toNat = 0x800E + 256 * x.val + 16 * y.val ∧
    (encode (.sneReg x y)).toNat = 0x9000 + 256 * x.val + 16 * y.val ∧
    (∀ n : Fin 16, (encode (.drw x y n)).toNat = 0xD000 + 256 * x.val + 16 * y.val + n.val)) ∧
  (∀ x : Reg, (encode (.skp x)).toNat = 0xE09E + 256 * x.val ∧ (encode (.sknp x)).toNat = 0xE0A1 + 256 * x.val ∧
    (encode (.ldVxDt x)).toNat = 0xF007 + 256 * x.val ∧ (encode (.ldVxK x)).toNat = 0xF00A + 256 * x.val ∧
    (encode (.ldDtVx x)).toNat = 0xF015 + 256 * x.val ∧ (encode (.ldStVx x)).toNat = 0xF018 + 256 * x.val ∧
    (encode (.addI x)).toNat = 0xF01E + 256 * x.val ∧ (encode (.ldF x)).toNat = 0xF029 + 256 * x.val ∧
    (encode (.ldB x)).toNat = 0xF033 + 256 * x.val ∧ (encode (.stRegs x)).toNat = 0xF055 + 256 * x.val ∧
    (encode (.ldRegs x)).toNat = 0xF065 + 256 * x.val)

/-- The unknown words, major opcode by major opcode (30_encoding.md R100; decisions D1 and D3, log 2 and 3). -/
def Obligations.UnknownWordsEnumerated : Prop :=
  ∀ op : Word, decode op = .dw op ↔
    (op.toNat / 4096 = 0 ∧ op.toNat ≠ 0x00E0 ∧ op.toNat ≠ 0x00EE) ∨
    (op.toNat / 4096 = 5 ∧ op.toNat % 16 ≠ 0) ∨
    (op.toNat / 4096 = 8 ∧ op.toNat % 16 ∈ [8, 9, 10, 11, 12, 13, 15]) ∨
    (op.toNat / 4096 = 9 ∧ op.toNat % 16 ≠ 0) ∨
    (op.toNat / 4096 = 14 ∧ op.toNat % 256 ∉ [0x9E, 0xA1]) ∨
    (op.toNat / 4096 = 15 ∧ op.toNat % 256 ∉ [0x07, 0x0A, 0x15, 0x18, 0x1E, 0x29, 0x33, 0x55, 0x65])

/-- Words of the spec's own examples and vectors, one or more of every family (95_test_vectors.md S3, S7, S8, S10, A6, A12,
B36, C9, D1, E3, E9). -/
def Obligations.ExampleWordsDecode : Prop :=
  decode 0x6005 = .ldImm 0 0x05 ∧ decode 0xA20A = .ldI 0x20A ∧ decode 0x00E0 = .cls ∧ decode 0x2300 = .call 0x300 ∧
  decode 0xB2F1 = .jpV0 0x2F1 ∧ decode 0x8F06 = .shr 15 0 ∧ decode 0xC30F = .rnd 3 0x0F ∧ decode 0xF433 = .ldB 4 ∧
  decode 0xD122 = .drw 1 2 2 ∧ decode 0xE2A1 = .sknp 2 ∧ decode 0xF30A = .ldVxK 3 ∧ decode 0xFFFF = .dw 0xFFFF

/-! ### The engine step -/

/-- A step of a running engine whose fetch lies in memory executes the instruction its two bytes decode to, high byte
first, and then moves on in the tick's batch (47_scheduler.md R231; byte order is decision D2, log 1; the split of a tick
into steps is the model's, log 19). -/
def Obligations.StepExecutesFetchedInstruction : Prop :=
  ∀ (s : State) (more : Nat), s.sched = .active → s.run = .running → s.phase = .engine more →
    s.pc.toNat + 2 ≤ 4096 →
    step s = match exec (decode (s.readByte s.pc.toNat ++ s.readByte (s.pc.toNat + 1))) s with
      | .next t => .next { t with phase := if more = 0 then .tickEnd else .engine (more - 1) }
      | .fault f => .fault f
      | .refused r => .refused r

/-- A fetch beyond memory halts the engine with `PcRange`, code 1, and nothing else changes (47_scheduler.md R231,
60_exceptions.md R261, R262; when it halts is decision D8, the code and the record are decision D15, log 7 and 13; the position
in the batch is the model's, log 19). -/
def Obligations.FetchBeyondMemoryHalts : Prop :=
  ∀ (s : State) (more : Nat), s.sched = .active → s.run = .running → s.phase = .engine more →
    4096 < s.pc.toNat + 2 →
    ∃ t, step s = .next t ∧ t.run = .halted ∧ t.cause = .pcRange ∧ t.cause.code = 1 ∧ t.faultPc = s.pc ∧
      t.faultAddr = s.pc ∧ t.phase = (if more = 0 then .tickEnd else .engine (more - 1)) ∧ KeepsExcept [.fault, .phase] s t

/-- An engine step of a halted engine changes nothing but the position in the batch (47_scheduler.md R230, decision D23,
log 21). -/
def Obligations.HaltedEngineStepIsNoOp : Prop :=
  ∀ (s : State) (more : Nat), s.sched = .active → s.run = .halted → s.phase = .engine more →
    ∃ t, step s = .next t ∧ t.phase = (if more = 0 then .tickEnd else .engine (more - 1)) ∧ KeepsExcept [.phase] s t

/-- Every step answers a next state, and so does every instruction: nothing is refused, and every fault of the spec is a
state (60_exceptions.md R261, R262, 45_unknown_opcode.md R220). That a fault entry is a next state rests on decision D15
(log 13), that a step of a stopped machine is one is the model's choice (log 21), that an unknown word is skipped is decision D24
(log 22). -/
def Obligations.EveryStepAnswersNext : Prop :=
  (∀ (i : Instr) (s : State), ∃ t, exec i s = .next t) ∧ ∀ s : State, ∃ t, step s = .next t

/-! ### The scheduler -/

/-- At the start of a tick both timers go down by one and never below 0, and nothing else does that: an instruction
changes `DT` or `ST` only by writing it (47_scheduler.md R235). That the decrement comes before the batch is decision D21 and
that it is a step of its own is the model's choice (log 19); the stop request that may take its place is decision D23 (log 21). -/
def Obligations.TimersDecrementOnlyAtTickStart : Prop :=
  (∀ s : State, s.sched = .active → s.phase = .tickStart → s.stopRequested = false →
    ∃ t, step s = .next t ∧ t.dt.toNat = (if s.dt.toNat > 0 then s.dt.toNat - 1 else 0) ∧
      t.st.toNat = (if s.st.toNat > 0 then s.st.toNat - 1 else 0) ∧
      KeepsExcept [.dt, .st, .phase] s t) ∧
  (∀ s t : State, step s = .next t → s.phase ≠ .tickStart →
    (t.dt = s.dt ∨ ∃ x, decode s.fetchWord = .ldDtVx x ∧ t.dt = s.reg x) ∧
    (t.st = s.st ∨ ∃ x, decode s.fetchWord = .ldStVx x ∧ t.st = s.reg x))

/-- The end of a tick latches the external keys, presents a dirty framebuffer, and stops the scheduler if the engine has
halted (47_scheduler.md R234, R236, R238, 43_display.md R186; decisions D18, D21, D23, log 16, 19, 21). -/
def Obligations.TickEndLatchesPresentsAndStops : Prop :=
  ∀ s : State, s.sched = .active → s.phase = .tickEnd →
    ∃ t, step s = .next t ∧ t.keys = Config.keysIn s.ticks ∧ t.dirty = false ∧
      t.events = (if s.dirty = true then .present s.fb :: s.events else s.events) ∧
      (∀ r c, t.fb.pixel r c = s.fb.pixel r c) ∧
      t.sched = (if s.run = .halted then .stopped else .active) ∧ t.phase = .tickStart ∧ t.ticks = s.ticks + 1 ∧
      KeepsExcept [.keys, .display, .events, .sched, .phase, .ticks] s t

/-- `present` emits the bitmap of the framebuffer and cleans the flag if it is dirty, and is a no-op otherwise
(43_display.md R186; the list of outputs is how the model holds what was emitted, log 23). -/
def Obligations.PresentOnlyWhenDirty : Prop :=
  ∀ s : State, (s.dirty = true → s.present.events = .present s.fb :: s.events ∧ s.present.dirty = false ∧
      (∀ r c, s.present.fb.pixel r c = s.fb.pixel r c) ∧ KeepsExcept [.display, .events] s s.present) ∧
    (s.dirty = false → s.present = s)

/-- Before every tick but the first a stop request decides whether the tick runs: it stops the scheduler and changes nothing
else, or the tick starts; a stopped machine stays as it is (47_scheduler.md R238; decision D23, log 21). -/
def Obligations.StopRequestStopsForGood : Prop :=
  (∀ s : State, s.sched = .active → s.phase = .tickStart → s.ticks ≠ 0 →
    ∃ t, step s = .next t ∧
      if Config.stopRequest s.ticks = true then t.sched = .stopped ∧ KeepsExcept [.sched] s t
      else t.phase = .engine (Config.cyclesPerTick - 1) ∧ KeepsExcept [.dt, .st, .phase] s t) ∧
  (∀ s : State, s.sched = .stopped → step s = .next s)

/-- The steps of one tick, taken together, are `Tick()`: decrement, `CYCLES_PER_TICK` engine steps, latch, present, stop
if halted (47_scheduler.md R234; decision D21; the split into steps is the model's, log 19). -/
def Obligations.StepsOfATickAreTheTick : Prop :=
  ∀ s : State, s.sched = .active → s.phase = .tickStart → s.stopRequested = false →
    Sys2Proof.core.run (Config.cyclesPerTick + 2) s = tick s

/-! ### Control flow -/

/-- `00EE` RET with a live entry: `PC` becomes exactly the popped value (40_control_flow.md R120; the word is decision D1,
log 2). -/
def Obligations.ReturnPopsTheTopEntry : Prop :=
  ∀ (s : State) (k : Fin 16), s.sp.val = k.val + 1 →
    ∃ t, exec .ret s = .next t ∧ t.pc = s.stack[k] ∧ t.sp.val = k.val ∧
      (∀ j : Fin 16, j.val < k.val → t.stack[j] = s.stack[j]) ∧ KeepsExcept [.pc, .stack] s t

/-- `2nnn` CALL with room on the stack: pushes the address after the call and jumps (40_control_flow.md R122; the pushed
value is decision D6, log 5). -/
def Obligations.CallPushesTheNextAddress : Prop :=
  ∀ (s : State) (nnn : BitVec 12) (k : Fin 16), s.sp.val = k.val →
    ∃ t, exec (.call nnn) s = .next t ∧ t.pc.toNat = nnn.toNat ∧ t.sp.val = k.val + 1 ∧ t.stack[k] = s.pc + 2 ∧
      (∀ j : Fin 16, j ≠ k → t.stack[j] = s.stack[j]) ∧ KeepsExcept [.pc, .stack] s t

/-- A call followed by a return comes back to the instruction after the call, with the live stack and everything else as
before (40_control_flow.md R120, R122, 10_state.md R29; decision D6, log 5). -/
def Obligations.CallThenReturnComesBack : Prop :=
  ∀ (s : State) (nnn : BitVec 12), s.sp.val < 16 →
    ∃ t u, exec (.call nnn) s = .next t ∧ exec .ret t = .next u ∧ u.pc = s.pc + 2 ∧ u.sp = s.sp ∧
      (∀ j : Fin 16, j.val < s.sp.val → u.stack[j] = s.stack[j]) ∧ KeepsExcept [.pc, .stack] s u

/-- `1nnn` JP (40_control_flow.md R121). -/
def Obligations.JumpSetsPc : Prop :=
  ∀ (s : State) (nnn : BitVec 12), (encode (.jp nnn)).toNat = 0x1000 + nnn.toNat ∧
    ∃ t, exec (.jp nnn) s = .next t ∧ t.pc.toNat = nnn.toNat ∧ KeepsExcept [.pc] s t

/-- `Bnnn` JP V0: the exact 16-bit sum, not reduced (40_control_flow.md R123; decision D8, log 7). -/
def Obligations.OffsetJumpKeepsTheWholeSum : Prop :=
  ∀ (s : State) (nnn : BitVec 12),
    ∃ t, exec (.jpV0 nnn) s = .next t ∧ t.pc.toNat = nnn.toNat + (s.reg 0).toNat ∧ t.pc.toNat ≤ 4350 ∧
      KeepsExcept [.pc] s t

/-- The four register skips add 4 to `PC` where the condition holds, else 2 (40_control_flow.md R124 to R127). -/
def Obligations.SkipsAddFourOrTwo : Prop :=
  ∀ (s : State) (x y : Reg) (kk : Byte),
    ((encode (.seImm x kk)).toNat = 0x3000 + 256 * x.val + kk.toNat ∧
      ∃ t, exec (.seImm x kk) s = .next t ∧ t.pc = s.pc + (if s.reg x = kk then 4 else 2) ∧ KeepsExcept [.pc] s t) ∧
    ((encode (.sneImm x kk)).toNat = 0x4000 + 256 * x.val + kk.toNat ∧
      ∃ t, exec (.sneImm x kk) s = .next t ∧ t.pc = s.pc + (if s.reg x ≠ kk then 4 else 2) ∧ KeepsExcept [.pc] s t) ∧
    ((encode (.seReg x y)).toNat = 0x5000 + 256 * x.val + 16 * y.val ∧
      ∃ t, exec (.seReg x y) s = .next t ∧ t.pc = s.pc + (if s.reg x = s.reg y then 4 else 2) ∧
        KeepsExcept [.pc] s t) ∧
    ((encode (.sneReg x y)).toNat = 0x9000 + 256 * x.val + 16 * y.val ∧
      ∃ t, exec (.sneReg x y) s = .next t ∧ t.pc = s.pc + (if s.reg x ≠ s.reg y then 4 else 2) ∧
        KeepsExcept [.pc] s t)

/-- `Ex9E` SKP and `ExA1` SKNP skip on the latched state of the key `Vx` names, for keys 0 to 15 (44_keypad_timers.md R200,
R201; the latch is decision D18, log 16). -/
def Obligations.KeySkipsReadTheLatch : Prop :=
  ∀ (s : State) (x : Reg) (k : Fin 16), (s.reg x).toNat = k.val →
    (∃ t, exec (.skp x) s = .next t ∧ t.pc = s.pc + (if s.keyPressed k = true then 4 else 2) ∧
      KeepsExcept [.pc] s t) ∧
    (∃ t, exec (.sknp x) s = .next t ∧ t.pc = s.pc + (if s.keyPressed k = false then 4 else 2) ∧
      KeepsExcept [.pc] s t)

/-! ### Load, arithmetic and logic -/

/-- `6xkk` LD Vx, byte (41_load_alu.md R140). -/
def Obligations.LoadImmediateWritesOnlyVx : Prop :=
  ∀ (s : State) (x : Reg) (kk : Byte), (encode (.ldImm x kk)).toNat = 0x6000 + 256 * x.val + kk.toNat ∧
    ∃ t, exec (.ldImm x kk) s = .next t ∧ RegResult s t x kk

/-- `7xkk` ADD Vx, byte wraps modulo 256 and writes no flag (41_load_alu.md R141). -/
def Obligations.AddImmediateWrapsWithoutFlag : Prop :=
  ∀ (s : State) (x : Reg) (kk : Byte),
    ∃ t, exec (.addImm x kk) s = .next t ∧
      RegResult s t x (BitVec.ofNat 8 (((s.reg x).toNat + kk.toNat) % 256))

/-- `8xy0` to `8xy3`: copy, OR, AND and XOR bit by bit, with no flag (41_load_alu.md R142 to R145; the codes are decision
D3 and the untouched VF decision D5, log 3 and 4). -/
def Obligations.CopyAndBitwiseWithoutFlag : Prop :=
  ∀ (s : State) (x y : Reg),
    (∃ t, exec (.ldReg x y) s = .next t ∧ RegResult s t x (s.reg y)) ∧
    (∃ t b, exec (.orReg x y) s = .next t ∧ RegResult s t x b ∧
      ∀ k, b.getLsbD k = ((s.reg x).getLsbD k || (s.reg y).getLsbD k)) ∧
    (∃ t b, exec (.andReg x y) s = .next t ∧ RegResult s t x b ∧
      ∀ k, b.getLsbD k = ((s.reg x).getLsbD k && (s.reg y).getLsbD k)) ∧
    (∃ t b, exec (.xorReg x y) s = .next t ∧ RegResult s t x b ∧
      ∀ k, b.getLsbD k = ((s.reg x).getLsbD k ^^ (s.reg y).getLsbD k))

/-- `8xy4` ADD: sum modulo 256, VF the carry; with `x = 15` VF ends as the sum (41_load_alu.md R146, R147; decisions D3
and D4, log 3 and 4). -/
def Obligations.AddSetsCarry : Prop :=
  ∀ (s : State) (x y : Reg),
    ∃ t, exec (.addReg x y) s = .next t ∧
      FlaggedResult s t x ((s.reg x).toNat + (s.reg y).toNat > 255)
        (BitVec.ofNat 8 (((s.reg x).toNat + (s.reg y).toNat) % 256))

/-- `8xy5` SUB and `8xy7` SUBN: difference modulo 256, VF the not-borrow; with `x = 15` VF ends as the difference
(41_load_alu.md R146, R148, R150; decisions D3 and D4, log 3 and 4). -/
def Obligations.SubtractSetsNotBorrow : Prop :=
  ∀ (s : State) (x y : Reg),
    (∃ t, exec (.subReg x y) s = .next t ∧
      FlaggedResult s t x ((s.reg x).toNat ≥ (s.reg y).toNat)
        (BitVec.ofNat 8 (((s.reg x).toNat + 256 - (s.reg y).toNat) % 256))) ∧
    (∃ t, exec (.subn x y) s = .next t ∧
      FlaggedResult s t x ((s.reg y).toNat ≥ (s.reg x).toNat)
        (BitVec.ofNat 8 (((s.reg y).toNat + 256 - (s.reg x).toNat) % 256)))

/-- `8xy6` SHR and `8xyE` SHL shift `Vx` by one, VF the bit moved out; `y` is not used; with `x = 15` VF ends as the result
(41_load_alu.md R146, R149, R151; decisions D3 and D4, log 3 and 4). -/
def Obligations.ShiftsMoveOneBitIntoVF : Prop :=
  ∀ (s : State) (x y : Reg),
    (∃ t, exec (.shr x y) s = .next t ∧
      FlaggedResult s t x ((s.reg x).toNat % 2 = 1) (BitVec.ofNat 8 ((s.reg x).toNat / 2))) ∧
    (∃ t, exec (.shl x y) s = .next t ∧
      FlaggedResult s t x ((s.reg x).toNat ≥ 128) (BitVec.ofNat 8 ((s.reg x).toNat * 2 % 256)))

/-- `Cxkk` RND: the drawn byte under the mask, one draw consumed, whatever the draw is (41_load_alu.md R153; the draw is a
free value, decision D19, log 17). -/
def Obligations.RandomByteUnderMask : Prop :=
  ∀ (s : State) (x : Reg) (kk : Byte),
    ∃ t, exec (.rnd x kk) s = .next t ∧ t.draws = s.draws + 1 ∧
      (∀ k, (t.reg x).getLsbD k = ((Config.randByte s.draws).getLsbD k && kk.getLsbD k)) ∧
      (∀ r, r ≠ x → t.reg r = s.reg r) ∧ t.pc = s.pc + 2 ∧ KeepsExcept [.regs, .pc, .draws] s t

/-! ### Index register and memory -/

/-- `Annn` LD I, addr (42_index_memory.md R160). -/
def Obligations.LoadIndexTakesTheAddress : Prop :=
  ∀ (s : State) (nnn : BitVec 12), (encode (.ldI nnn)).toNat = 0xA000 + nnn.toNat ∧
    ∃ t, exec (.ldI nnn) s = .next t ∧ t.idx.toNat = nnn.toNat ∧ t.pc = s.pc + 2 ∧ KeepsExcept [.idx, .pc] s t

/-- `Fx1E` ADD I, Vx wraps modulo 4096, with no flag and no fault (42_index_memory.md R161; decision D9, log 8). -/
def Obligations.AddIndexWrapsAt4096 : Prop :=
  ∀ (s : State) (x : Reg),
    ∃ t, exec (.addI x) s = .next t ∧ t.idx.toNat = (s.idx.toNat + (s.reg x).toNat) % 4096 ∧ t.pc = s.pc + 2 ∧
      KeepsExcept [.idx, .pc] s t

/-- `Fx29` LD F, Vx uses the whole byte, for every font base (42_index_memory.md R162; decisions D10 and D11, log 9 and
10). -/
def Obligations.FontAddressUsesTheWholeByte : Prop :=
  ∀ (s : State) (x : Reg),
    ∃ t, exec (.ldF x) s = .next t ∧ t.idx.toNat = Config.fontBase.val + 5 * (s.reg x).toNat ∧ t.idx.toNat ≤ 1707 ∧
      t.pc = s.pc + 2 ∧ KeepsExcept [.idx, .pc] s t

/-- `Fx33` LD B, Vx inside memory stores the three decimal digits at `I`, hundreds first, and no other byte
(42_index_memory.md R163; decision D13, log 12). -/
def Obligations.DecimalDigitsStoredAtIndex : Prop :=
  ∀ (s : State) (x : Reg), s.dataAddr + 3 ≤ 4096 →
    ∃ t, exec (.ldB x) s = .next t ∧
      (s.mem.wf = true → (t.readByte s.dataAddr).toNat = (s.reg x).toNat / 100 ∧
        (t.readByte (s.dataAddr + 1)).toNat = (s.reg x).toNat / 10 % 10 ∧
        (t.readByte (s.dataAddr + 2)).toNat = (s.reg x).toNat % 10) ∧
      (∀ a, a < s.dataAddr ∨ s.dataAddr + 3 ≤ a → t.readByte a = s.readByte a) ∧ t.pc = s.pc + 2 ∧
      KeepsExcept [.mem, .pc] s t

/-- `Fx55` LD [I], Vx inside memory stores V0 to Vx at `I` in ascending order and no other byte; `I` is unchanged
(42_index_memory.md R164; decision D14, log 12). -/
def Obligations.RegistersStoredAtIndex : Prop :=
  ∀ (s : State) (x : Reg), s.dataAddr + x.val + 1 ≤ 4096 →
    ∃ t, exec (.stRegs x) s = .next t ∧
      (s.mem.wf = true → ∀ r : Reg, r ≤ x → t.readByte (s.dataAddr + r.val) = s.reg r) ∧
      (∀ a, a < s.dataAddr ∨ s.dataAddr + x.val + 1 ≤ a → t.readByte a = s.readByte a) ∧ t.pc = s.pc + 2 ∧
      KeepsExcept [.mem, .pc] s t

/-- `Fx65` LD Vx, [I] inside memory loads V0 to Vx from `I` in ascending order; `I` is unchanged (42_index_memory.md R165;
decision D14, log 12). -/
def Obligations.RegistersLoadedFromIndex : Prop :=
  ∀ (s : State) (x : Reg), s.dataAddr + x.val + 1 ≤ 4096 →
    ∃ t, exec (.ldRegs x) s = .next t ∧ (∀ r : Reg, r ≤ x → t.reg r = s.readByte (s.dataAddr + r.val)) ∧
      (∀ r : Reg, x < r → t.reg r = s.reg r) ∧ t.pc = s.pc + 2 ∧ KeepsExcept [.regs, .pc] s t

/-- A load with the same `x` and `I` gives back the stored registers, whatever the registers hold in between
(42_index_memory.md R165; decision D14, log 12). -/
def Obligations.StoreThenLoadRestoresRegisters : Prop :=
  ∀ (s : State) (x : Reg) (v : Vector Byte 16), s.dataAddr + x.val + 1 ≤ 4096 → s.mem.wf = true →
    ∃ t u, exec (.stRegs x) s = .next t ∧ exec (.ldRegs x) { t with v := v } = .next u ∧
      (∀ r : Reg, r ≤ x → u.reg r = s.reg r) ∧ (∀ r : Reg, x < r → u.reg r = v[r]) ∧ u.idx = s.idx

/-- A stored instruction is what the next fetch reads: bytes stored by `Fx55` just after the instruction are the word at
the new `PC` (20_memory.md R72; byte order is decision D2, log 1). -/
def Obligations.StoredCodeIsFetchedNext : Prop :=
  ∀ (s : State) (x : Reg), s.mem.wf = true → 1 ≤ x.val → s.idx.toNat = s.pc.toNat + 2 →
    s.idx.toNat + x.val + 1 ≤ 4096 →
    ∃ t, exec (.stRegs x) s = .next t ∧ t.fetchWord = s.reg 0 ++ s.reg 1

/-! ### Display -/

/-- `00E0` CLS clears every pixel and marks the display dirty (43_display.md R180; the word is decision D1, log 2). -/
def Obligations.ClearScreenClearsEveryPixel : Prop :=
  ∀ s : State, ∃ t, exec .cls s = .next t ∧ (∀ r c, t.fb.pixel r c = false) ∧ t.dirty = true ∧ t.pc = s.pc + 2 ∧
    KeepsExcept [.display, .pc] s t

/-- `Dxyn` DRW inside memory: every pixel is XORed with the sprite's bit there, VF says whether a lit pixel was turned off,
and the display is dirty, also with no rows (43_display.md R181, R182, R183; decisions D12 and D28, log 11 and 31). -/
def Obligations.DrawXorsTheSpriteAndReportsCollision : Prop :=
  ∀ (s : State) (x y : Reg) (n : Fin 16), s.dataAddr + n.val ≤ 4096 →
    ∃ t, exec (.drw x y n) s = .next t ∧
      (∀ r c, t.fb.pixel r c = (s.fb.pixel r c ^^
        spritePixel ((List.range n.val).map fun j => s.readByte (s.dataAddr + j)) (s.reg x) (s.reg y) r c)) ∧
      ((∃ r c, s.fb.pixel r c = true ∧ t.fb.pixel r c = false) → t.reg VF = 1) ∧
      ((¬ ∃ r c, s.fb.pixel r c = true ∧ t.fb.pixel r c = false) → t.reg VF = 0) ∧
      (∀ r, r ≠ VF → t.reg r = s.reg r) ∧ t.dirty = true ∧ t.pc = s.pc + 2 ∧
      KeepsExcept [.regs, .display, .pc] s t

/-- Drawing the same sprite twice at the same place restores every pixel, and the second draw reports a collision iff the
sprite has a pixel lit after the first; sprites wrap at the screen's edges (43_display.md R184; decision D12, log 11). -/
def Obligations.DrawingTwiceErases : Prop :=
  (∀ (s : State) (x y : Reg) (n : Fin 16), x ≠ VF → y ≠ VF → s.dataAddr + n.val ≤ 4096 →
    ∃ t u, exec (.drw x y n) s = .next t ∧ exec (.drw x y n) t = .next u ∧
      (∀ r c, u.fb.pixel r c = s.fb.pixel r c) ∧
      (u.reg VF = 1 ↔ ∃ r c, t.fb.pixel r c = true ∧ t.fb.pixel r c ≠ u.fb.pixel r c)) ∧
  (∀ (y0 : Byte) (r : Fin 32) (c : Fin 64), (drawSprite (Vector.replicate 32 0) [0xFF] 60 y0).1.pixel r c =
    decide (r.val = y0.toNat % 32 ∧ (60 ≤ c.val ∨ c.val < 4))) ∧
  (∀ (b₀ b₁ b₂ b₃ x0 : Byte) (r : Fin 32), b₀ ≠ 0 → b₁ ≠ 0 → b₂ ≠ 0 → b₃ ≠ 0 →
    ((∃ c, (drawSprite (Vector.replicate 32 0) [b₀, b₁, b₂, b₃] x0 30).1.pixel r c = true) ↔
      r = 30 ∨ r = 31 ∨ r = 0 ∨ r = 1))

/-! ### Keypad and timers -/

/-- `Fx07` LD Vx, DT (44_keypad_timers.md R203). -/
def Obligations.DelayTimerRead : Prop :=
  ∀ (s : State) (x : Reg), (encode (.ldVxDt x)).toNat = 0xF007 + 256 * x.val ∧
    ∃ t, exec (.ldVxDt x) s = .next t ∧ RegResult s t x s.dt

/-- `Fx15` LD DT, Vx and `Fx18` LD ST, Vx (44_keypad_timers.md R206, R207). -/
def Obligations.TimersWritten : Prop :=
  ∀ (s : State) (x : Reg),
    ((encode (.ldDtVx x)).toNat = 0xF015 + 256 * x.val ∧
      ∃ t, exec (.ldDtVx x) s = .next t ∧ t.dt = s.reg x ∧ t.pc = s.pc + 2 ∧ KeepsExcept [.dt, .pc] s t) ∧
    ((encode (.ldStVx x)).toNat = 0xF018 + 256 * x.val ∧
      ∃ t, exec (.ldStVx x) s = .next t ∧ t.st = s.reg x ∧ t.pc = s.pc + 2 ∧ KeepsExcept [.st, .pc] s t)

/-- `Fx0A` LD Vx, K: with no key pressed the instruction changes nothing and will run again; else `Vx` takes the lowest
pressed key (44_keypad_timers.md R204, R205; decision D17, log 15). -/
def Obligations.KeyWaitTakesTheLowestKey : Prop :=
  ∀ (s : State) (x : Reg),
    ((∀ k, s.keyPressed k = false) → exec (.ldVxK x) s = .next s) ∧
    (∀ k : Fin 16, s.keyPressed k = true → (∀ j < k, s.keyPressed j = false) →
      ∃ t, exec (.ldVxK x) s = .next t ∧ RegResult s t x (BitVec.ofNat 8 k.val))

/-! ### Unknown opcodes -/

/-- An unknown word is a reported no-op that advances `PC` (45_unknown_opcode.md R220, R221; decision D24; the record of
the report is the model's, log 22 and 23). -/
def Obligations.UnknownWordIsReportedAndSkipped : Prop :=
  ∀ (s : State) (op : Word),
    ∃ t, exec (.dw op) s = .next t ∧ t.pc = s.pc + 2 ∧ t.events = .unknownOpcode s.pc op :: s.events ∧
      KeepsExcept [.pc, .events] s t

/-! ### The whole machine -/

/-- The fault table: an instruction takes exactly the fault its condition names, with the fault entry and nothing else,
`CAUSE` reading as its code (MemRange 2, StackOverflow 3, StackUnderflow 4, KeyRange 5), and otherwise leaves the fault record
alone (60_exceptions.md R261, R262, 10_state.md R35; the codes and the entry are decision D15, KeyRange is decision D16, log 13
and 14). -/
def Obligations.FaultsAreExactlyTheTable : Prop :=
  ∀ (i : Instr) (s : State),
    (∀ c a, faultOf i s = some (c, a) → ∃ t, exec i s = .next t ∧ TakesFault c a s t ∧
      t.cause.code = faultCode i) ∧
    (faultOf i s = none → ∃ t, exec i s = .next t ∧ SamePart s t .fault)

/-- What an instruction that takes no fault may change: its footprint of state, and in it only the registers it names; VF as a
flag only by the six flag writers, and else only as a named destination (10_state.md R22, R24, R31, R32, R36, R38, 20_memory.md
R61). That the other operations leave VF alone is decision D5 (log 4), that `Fx55` and `Fx65` leave `I` alone is decision D14
(log 12). -/
def Obligations.InstructionsKeepToTheirFootprint : Prop :=
  ∀ (i : Instr) (s : State), faultOf i s = none →
    ∃ t, exec i s = .next t ∧ KeepsExcept (footprint i) s t ∧ ∀ r, mayWrite i r = false → t.reg r = s.reg r

/-- Where every instruction leaves `PC` (40_control_flow.md R129; the whole sum of `Bnnn` is decision D8, the faults that leave
`PC` alone are decisions D15 and D16, log 7, 13 and 14). -/
def Obligations.PcAfterEveryInstruction : Prop :=
  ∀ (i : Instr) (s : State), s.pc.toNat + 2 ≤ 4096 →
    ∃ t, exec i s = .next t ∧ (faultOf i s = none → t.pc.toNat = pcAfter i s) ∧ (faultOf i s ≠ none → t.pc = s.pc)

/-- The engine halts only in an engine step, for `PcRange` at the fetch or for the fetched instruction's own fault
(60_exceptions.md R261, R263). -/
def Obligations.HaltHasOneOfTheFiveCauses : Prop :=
  ∀ s t : State, s.run = .running → step s = .next t → t.run = .halted →
    (∃ more, s.phase = .engine more) ∧
    ((4096 < s.pc.toNat + 2 ∧ t.cause = .pcRange ∧ t.faultAddr = s.pc) ∨
      (s.pc.toNat + 2 ≤ 4096 ∧ faultOf (decode s.fetchWord) s = some (t.cause, t.faultAddr)))

/-- A halted machine stays halted, and its fault record, registers, memory, stack and pixels stay (10_state.md R34,
60_exceptions.md R264, R265). -/
def Obligations.HaltedStaysHalted : Prop :=
  ∀ s t : State, s.run = .halted → step s = .next t →
    SamePart s t .fault ∧ SamePart s t .regs ∧ SamePart s t .idx ∧ SamePart s t .pc ∧ SamePart s t .stack ∧
      SamePart s t .mem ∧ ∀ r c, t.fb.pixel r c = s.fb.pixel r c

/-- `ST`, `DIRTY`, dead stack entries and the record of outputs are never observed: states alike but for them step to
states alike but for them (10_state.md R29, R31, R40, 45_unknown_opcode.md R221; the record is the model's, log 23). -/
def Obligations.UnreadableStateIsNeverObserved : Prop :=
  ∀ s t s' : State, Alike s t → step s = .next s' → ∃ t', step t = .next t' ∧ Alike s' t'

/-- Every step keeps the invariant, from every state that has it (10_state.md R24, R26, R36, 40_control_flow.md R120,
47_scheduler.md R234, R238, 60_exceptions.md R261, R262; decisions D6, D8, D9, D15, log 5, 7, 8, 13). -/
def Obligations.EveryStepKeepsTheInvariant : Prop :=
  ∀ s t : State, s.Inv → step s = .next t → t.Inv

/-- The invariant holds after reset (10_state.md R41). -/
def Obligations.ResetMeetsTheInvariant : Prop := State.reset.Inv

/-- The state after reset, before a program is loaded (10_state.md R41, 20_memory.md R65; the values of `V`, `I`, `SP`,
`DT`, `ST`, `DIRTY`, `KEYS` and the fault record are the spec's decisions D15, D18, D22, D23, log 20; the position in the tick is
the model's, log 19). -/
def Obligations.ResetValues : Prop :=
  (∀ r, State.reset.reg r = 0) ∧ State.reset.idx = 0 ∧ State.reset.pc = 512 ∧ State.reset.sp.val = 0 ∧
  (∀ k : Fin 16, State.reset.stack[k] = 0) ∧ (∀ r c, State.reset.fb.pixel r c = false) ∧ State.reset.dirty = false ∧
  State.reset.dt = 0 ∧ State.reset.st = 0 ∧ (∀ k, State.reset.keyPressed k = false) ∧ State.reset.run = .running ∧
  State.reset.cause.code = 0 ∧ State.reset.faultPc = 0 ∧ State.reset.faultAddr = 0 ∧ State.reset.sched = .active ∧
  State.reset.phase = .tickStart ∧
  (∀ j : Fin 80, State.reset.readByte (Config.fontBase.val + j.val) = Config.fontData[j]) ∧
  (∀ a, a < Config.fontBase.val ∨ Config.fontBase.val + 80 ≤ a → State.reset.readByte a = 0)

/-- Loading a ROM image copies it verbatim to 512 and changes nothing else; an image over 3584 bytes is not loaded
(47_scheduler.md R241, 70_reset_and_hazards.md R300, R301; decision D26, log 24). -/
def Obligations.RomImageIsCopiedVerbatim : Prop :=
  (∀ image : List Byte, image.length ≤ 3584 → ∃ s, boot image = some s ∧
    (∀ (j : Nat) (h : j < image.length), s.readByte (512 + j) = image[j]) ∧
    (∀ a, a < 512 ∨ 512 + image.length ≤ a → s.readByte a = State.reset.readByte a) ∧
    KeepsExcept [.mem] State.reset s) ∧
  (∀ image : List Byte, 3584 < image.length → boot image = none)
end

