-- ==== Sys2Proof/Laws/Decode.lean ====
section
/-! SUPPORT. Words as numbers: the place values of the fields, and what the decoder does with each value of them. -/

namespace Sys2Proof

/-! ### Place values of the packed formats -/

theorem toNat_append_add {n m : Nat} (a : BitVec n) (b : BitVec m) : (a ++ b).toNat = a.toNat * 2 ^ m + b.toNat := by
  rw [BitVec.toNat_append, ← Nat.shiftLeft_add_eq_or_of_lt b.isLt, Nat.shiftLeft_eq]

@[simp] theorem toNat_regBits (r : Reg) : (Reg.bits r).toNat = r.val := rfl

theorem toNat_packNNN (w : BitVec 4) (nnn : BitVec 12) : (packNNN w nnn).toNat = w.toNat * 4096 + nnn.toNat :=
  toNat_append_add w nnn

theorem toNat_packXKK (w : BitVec 4) (x : Reg) (kk : Byte) :
    (packXKK w x kk).toNat = w.toNat * 4096 + x.val * 256 + kk.toNat := by
  have h : (packXKK w x kk).toNat = w.toNat * 2 ^ 12 + (x.val * 2 ^ 8 + kk.toNat) :=
    (toNat_append_add w (Reg.bits x ++ kk)).trans (congrArg _ (toNat_append_add (Reg.bits x) kk))
  rw [h]
  ring

theorem toNat_packXYN (w : BitVec 4) (x y : Reg) (n : BitVec 4) :
    (packXYN w x y n).toNat = w.toNat * 4096 + x.val * 256 + y.val * 16 + n.toNat := by
  have h : (packXYN w x y n).toNat = w.toNat * 2 ^ 12 + (x.val * 2 ^ 8 + (y.val * 2 ^ 4 + n.toNat)) :=
    (toNat_append_add w (Reg.bits x ++ (Reg.bits y ++ n))).trans (congrArg _
      ((toNat_append_add (Reg.bits x) (Reg.bits y ++ n)).trans (congrArg _ (toNat_append_add (Reg.bits y) n))))
  rw [h]
  ring

/-! ### Place values of the fields -/

theorem toNat_wField (op : Word) : (wField op).toNat = op.toNat / 4096 := by
  simp [wField, BitVec.extractLsb'_toNat, Nat.shiftRight_eq_div_pow]; omega

theorem val_xField (op : Word) : (xField op).val = op.toNat / 256 % 16 := by
  simp [xField, Nat.shiftRight_eq_div_pow]

theorem val_yField (op : Word) : (yField op).val = op.toNat / 16 % 16 := by
  simp [yField, Nat.shiftRight_eq_div_pow]

theorem toNat_nField (op : Word) : (nField op).toNat = op.toNat % 16 := by simp [nField]

theorem val_nCount (op : Word) : (nCount op).val = op.toNat % 16 := toNat_nField op

theorem toNat_kkField (op : Word) : (kkField op).toNat = op.toNat % 256 := by simp [kkField]

theorem toNat_nnnField (op : Word) : (nnnField op).toNat = op.toNat % 4096 := by simp [nnnField]

/-! ### Fields of the packed formats -/

@[simp] theorem wField_packNNN (w : BitVec 4) (nnn : BitVec 12) : wField (packNNN w nnn) = w :=
  BitVec.eq_of_toNat_eq (by rw [toNat_wField, toNat_packNNN]; omega)

@[simp] theorem nnnField_packNNN (w : BitVec 4) (nnn : BitVec 12) : nnnField (packNNN w nnn) = nnn :=
  BitVec.eq_of_toNat_eq (by rw [toNat_nnnField, toNat_packNNN]; omega)

@[simp] theorem wField_packXKK (w : BitVec 4) (x : Reg) (kk : Byte) : wField (packXKK w x kk) = w :=
  BitVec.eq_of_toNat_eq (by rw [toNat_wField, toNat_packXKK]; omega)

@[simp] theorem xField_packXKK (w : BitVec 4) (x : Reg) (kk : Byte) : xField (packXKK w x kk) = x :=
  Fin.ext (by rw [val_xField, toNat_packXKK]; omega)

@[simp] theorem kkField_packXKK (w : BitVec 4) (x : Reg) (kk : Byte) : kkField (packXKK w x kk) = kk :=
  BitVec.eq_of_toNat_eq (by rw [toNat_kkField, toNat_packXKK]; omega)

@[simp] theorem wField_packXYN (w : BitVec 4) (x y : Reg) (n : BitVec 4) : wField (packXYN w x y n) = w :=
  BitVec.eq_of_toNat_eq (by rw [toNat_wField, toNat_packXYN]; omega)

@[simp] theorem xField_packXYN (w : BitVec 4) (x y : Reg) (n : BitVec 4) : xField (packXYN w x y n) = x :=
  Fin.ext (by rw [val_xField, toNat_packXYN]; omega)

@[simp] theorem yField_packXYN (w : BitVec 4) (x y : Reg) (n : BitVec 4) : yField (packXYN w x y n) = y :=
  Fin.ext (by rw [val_yField, toNat_packXYN]; omega)

@[simp] theorem nField_packXYN (w : BitVec 4) (x y : Reg) (n : BitVec 4) : nField (packXYN w x y n) = n :=
  BitVec.eq_of_toNat_eq (by rw [toNat_nField, toNat_packXYN]; omega)

@[simp] theorem nCount_packXYN (w : BitVec 4) (x y : Reg) (n : Fin 16) : nCount (packXYN w x y (Reg.bits n)) = n :=
  Fin.ext (by rw [val_nCount, toNat_packXYN]; simp; omega)

/-! ### Words and bytes -/

@[simp] theorem wordOfBytes_bytes (op : Word) : wordOfBytes (op.extractLsb' 8 8) (op.extractLsb' 0 8) = op := by
  have h : (wordOfBytes (op.extractLsb' 8 8) (op.extractLsb' 0 8)).toNat = _ := toNat_append_add _ _
  apply BitVec.eq_of_toNat_eq
  rw [h]
  simp [Nat.shiftRight_eq_div_pow]
  omega

/-- Decoding the bytes of a word, and what follows them, decodes the word. -/
theorem decodeBytes_bytesOfWord (op : Word) (rest : List Byte) :
    decodeBytes (bytesOfWord op ++ rest) = .ok (decode op, rest) := by
  simp [bytesOfWord, decodeBytes]

theorem decodeTableWord_eq (nbits w : Nat) : decodeTableWord nbits w = some (decode (tableWord nbits w)) := by
  simp [decodeTableWord, bytesOfWord, decodeBytes]

/-! ### Masks as fields -/

/-- A word is its four nibbles. -/
theorem word_ext {a b : Word} (hw : wField a = wField b) (hx : xField a = xField b) (hy : yField a = yField b)
    (hn : nField a = nField b) : a = b := by
  have h₁ := congrArg BitVec.toNat hw
  have h₂ := congrArg Fin.val hx
  have h₃ := congrArg Fin.val hy
  have h₄ := congrArg BitVec.toNat hn
  rw [toNat_wField, toNat_wField] at h₁
  rw [val_xField, val_xField] at h₂
  rw [val_yField, val_yField] at h₃
  rw [toNat_nField, toNat_nField] at h₄
  exact BitVec.eq_of_toNat_eq (by omega)

theorem wField_and (a b : Word) : wField (a &&& b) = wField a &&& wField b := by simp [wField, BitVec.extractLsb'_and]

theorem nField_and (a b : Word) : nField (a &&& b) = nField a &&& nField b := by simp [nField, BitVec.extractLsb'_and]

theorem kkField_and (a b : Word) : kkField (a &&& b) = kkField a &&& kkField b := by
  simp [kkField, BitVec.extractLsb'_and]

theorem bits_xField_and (a b : Word) : Reg.bits (xField (a &&& b)) = Reg.bits (xField a) &&& Reg.bits (xField b) :=
  BitVec.extractLsb'_and

theorem bits_yField_and (a b : Word) : Reg.bits (yField (a &&& b)) = Reg.bits (yField a) &&& Reg.bits (yField b) :=
  BitVec.extractLsb'_and

theorem bits_injective {r r' : Reg} (h : Reg.bits r = Reg.bits r') : r = r' := Fin.ext (congrArg BitVec.toNat h)

theorem word_and_ext {op m p : Word} (hw : wField op &&& wField m = wField p)
    (hx : Reg.bits (xField op) &&& Reg.bits (xField m) = Reg.bits (xField p))
    (hy : Reg.bits (yField op) &&& Reg.bits (yField m) = Reg.bits (yField p))
    (hn : nField op &&& nField m = nField p) : op &&& m = p :=
  word_ext ((wField_and op m).trans hw) (bits_injective ((bits_xField_and op m).trans hx))
    (bits_injective ((bits_yField_and op m).trans hy)) ((nField_and op m).trans hn)

theorem word_kk_ext {a b : Word} (hw : wField a = wField b) (hx : xField a = xField b) (hk : kkField a = kkField b) :
    a = b := by
  have h := congrArg BitVec.toNat hk
  rw [toNat_kkField, toNat_kkField] at h
  exact word_ext hw hx (Fin.ext (by rw [val_yField, val_yField]; omega))
    (BitVec.eq_of_toNat_eq (by rw [toNat_nField, toNat_nField]; omega))

/-- A row of mask `0xF000` is the words of one major opcode. -/
theorem and_F000_eq_iff (op : Word) (w : BitVec 4) : op &&& 0xF000 = packXYN w 0 0 0 ↔ wField op = w := by
  have hm : wField (0xF000 : Word) = 0xF#4 := by decide
  constructor
  · intro h
    have := congrArg wField h
    rwa [wField_and, hm, wField_packXYN, show (0xF#4) = BitVec.allOnes 4 from rfl, BitVec.and_allOnes] at this
  · intro h
    apply word_and_ext
    · rw [hm, wField_packXYN, show (0xF#4) = BitVec.allOnes 4 from rfl, BitVec.and_allOnes, h]
    · rw [xField_packXYN]; exact BitVec.and_zero
    · rw [yField_packXYN]; exact BitVec.and_zero
    · rw [nField_packXYN]; exact BitVec.and_zero

/-- A row of mask `0xF00F` is the words of one major and one minor opcode. -/
theorem and_F00F_eq_iff (op : Word) (w n : BitVec 4) :
    op &&& 0xF00F = packXYN w 0 0 n ↔ wField op = w ∧ nField op = n := by
  have hm : wField (0xF00F : Word) = BitVec.allOnes 4 := by decide
  have hm' : nField (0xF00F : Word) = BitVec.allOnes 4 := by decide
  constructor
  · intro h
    have h₁ := congrArg wField h
    have h₂ := congrArg nField h
    rw [wField_and, hm, wField_packXYN, BitVec.and_allOnes] at h₁
    rw [nField_and, hm', nField_packXYN, BitVec.and_allOnes] at h₂
    exact ⟨h₁, h₂⟩
  · rintro ⟨h₁, h₂⟩
    apply word_and_ext
    · rw [hm, wField_packXYN, BitVec.and_allOnes, h₁]
    · rw [xField_packXYN]; exact BitVec.and_zero
    · rw [yField_packXYN]; exact BitVec.and_zero
    · rw [hm', nField_packXYN, BitVec.and_allOnes, h₂]

/-- A row of mask `0xF0FF` is the words of one major opcode and one `kk`. -/
theorem and_F0FF_eq_iff (op : Word) (w : BitVec 4) (kk : Byte) :
    op &&& 0xF0FF = packXKK w 0 kk ↔ wField op = w ∧ kkField op = kk := by
  have hm : wField (0xF0FF : Word) = BitVec.allOnes 4 := by decide
  have hm' : kkField (0xF0FF : Word) = BitVec.allOnes 8 := by decide
  constructor
  · intro h
    have h₁ := congrArg wField h
    have h₂ := congrArg kkField h
    rw [wField_and, hm, wField_packXKK, BitVec.and_allOnes] at h₁
    rw [kkField_and, hm', kkField_packXKK, BitVec.and_allOnes] at h₂
    exact ⟨h₁, h₂⟩
  · rintro ⟨h₁, h₂⟩
    apply word_kk_ext
    · rw [wField_and, hm, wField_packXKK, BitVec.and_allOnes, h₁]
    · apply bits_injective
      rw [bits_xField_and, xField_packXKK]; exact BitVec.and_zero
    · rw [kkField_and, hm', kkField_packXKK, BitVec.and_allOnes, h₂]

/-! ### Rows of the opcode map as place values -/

theorem covers_mask_FFFF (op p : Word) : (OpcodeRow.mk 0xFFFF p).covers op = true ↔ op.toNat = p.toNat := by
  have h : op &&& 0xFFFF = op := BitVec.and_allOnes
  rw [OpcodeRow.covers, h, beq_iff_eq, BitVec.toNat_inj]

theorem covers_mask_F000 (op : Word) (w : BitVec 4) :
    (OpcodeRow.mk 0xF000 (packXYN w 0 0 0)).covers op = true ↔ op.toNat / 4096 = w.toNat := by
  rw [OpcodeRow.covers, beq_iff_eq, and_F000_eq_iff, ← BitVec.toNat_inj, toNat_wField]

theorem covers_mask_F00F (op : Word) (w n : BitVec 4) :
    (OpcodeRow.mk 0xF00F (packXYN w 0 0 n)).covers op = true ↔ op.toNat / 4096 = w.toNat ∧ op.toNat % 16 = n.toNat := by
  rw [OpcodeRow.covers, beq_iff_eq, and_F00F_eq_iff, ← BitVec.toNat_inj, ← BitVec.toNat_inj, toNat_wField, toNat_nField]

theorem covers_mask_F0FF (op : Word) (w : BitVec 4) (kk : Byte) :
    (OpcodeRow.mk 0xF0FF (packXKK w 0 kk)).covers op = true ↔
      op.toNat / 4096 = w.toNat ∧ op.toNat % 256 = kk.toNat := by
  rw [OpcodeRow.covers, beq_iff_eq, and_F0FF_eq_iff, ← BitVec.toNat_inj, ← BitVec.toNat_inj, toNat_wField,
    toNat_kkField]

end Sys2Proof
end

