-- ==== Sys2Proof/Laws/State.lean ====
section
/-! SUPPORT. One lemma per field per state update, true by rfl, so that no later proof unfolds a record update. -/

namespace Sys2Proof.Machine

variable (s : State)

/-! ### `V[x] <- b` -/

@[simp] theorem setReg_v (x : Reg) (b : Byte) : (s.setReg x b).v = s.v.set x b := rfl
@[simp] theorem setReg_idx (x : Reg) (b : Byte) : (s.setReg x b).idx = s.idx := rfl
@[simp] theorem setReg_pc (x : Reg) (b : Byte) : (s.setReg x b).pc = s.pc := rfl
@[simp] theorem setReg_stack (x : Reg) (b : Byte) : (s.setReg x b).stack = s.stack := rfl
@[simp] theorem setReg_sp (x : Reg) (b : Byte) : (s.setReg x b).sp = s.sp := rfl
@[simp] theorem setReg_fb (x : Reg) (b : Byte) : (s.setReg x b).fb = s.fb := rfl
@[simp] theorem setReg_dirty (x : Reg) (b : Byte) : (s.setReg x b).dirty = s.dirty := rfl
@[simp] theorem setReg_dt (x : Reg) (b : Byte) : (s.setReg x b).dt = s.dt := rfl
@[simp] theorem setReg_st (x : Reg) (b : Byte) : (s.setReg x b).st = s.st := rfl
@[simp] theorem setReg_keys (x : Reg) (b : Byte) : (s.setReg x b).keys = s.keys := rfl
@[simp] theorem setReg_mem (x : Reg) (b : Byte) : (s.setReg x b).mem = s.mem := rfl
@[simp] theorem setReg_run (x : Reg) (b : Byte) : (s.setReg x b).run = s.run := rfl
@[simp] theorem setReg_cause (x : Reg) (b : Byte) : (s.setReg x b).cause = s.cause := rfl
@[simp] theorem setReg_faultPc (x : Reg) (b : Byte) : (s.setReg x b).faultPc = s.faultPc := rfl
@[simp] theorem setReg_faultAddr (x : Reg) (b : Byte) : (s.setReg x b).faultAddr = s.faultAddr := rfl
@[simp] theorem setReg_sched (x : Reg) (b : Byte) : (s.setReg x b).sched = s.sched := rfl
@[simp] theorem setReg_phase (x : Reg) (b : Byte) : (s.setReg x b).phase = s.phase := rfl
@[simp] theorem setReg_draws (x : Reg) (b : Byte) : (s.setReg x b).draws = s.draws := rfl
@[simp] theorem setReg_ticks (x : Reg) (b : Byte) : (s.setReg x b).ticks = s.ticks := rfl
@[simp] theorem setReg_events (x : Reg) (b : Byte) : (s.setReg x b).events = s.events := rfl

/-! ### loading registers from bytes -/

@[simp] theorem loadRegs_v (bs : List Byte) : (s.loadRegs bs).v = Vector.ofFn fun j : Reg => bs.getD j.val s.v[j] := rfl
@[simp] theorem loadRegs_idx (bs : List Byte) : (s.loadRegs bs).idx = s.idx := rfl
@[simp] theorem loadRegs_pc (bs : List Byte) : (s.loadRegs bs).pc = s.pc := rfl
@[simp] theorem loadRegs_stack (bs : List Byte) : (s.loadRegs bs).stack = s.stack := rfl
@[simp] theorem loadRegs_sp (bs : List Byte) : (s.loadRegs bs).sp = s.sp := rfl
@[simp] theorem loadRegs_fb (bs : List Byte) : (s.loadRegs bs).fb = s.fb := rfl
@[simp] theorem loadRegs_dirty (bs : List Byte) : (s.loadRegs bs).dirty = s.dirty := rfl
@[simp] theorem loadRegs_dt (bs : List Byte) : (s.loadRegs bs).dt = s.dt := rfl
@[simp] theorem loadRegs_st (bs : List Byte) : (s.loadRegs bs).st = s.st := rfl
@[simp] theorem loadRegs_keys (bs : List Byte) : (s.loadRegs bs).keys = s.keys := rfl
@[simp] theorem loadRegs_mem (bs : List Byte) : (s.loadRegs bs).mem = s.mem := rfl
@[simp] theorem loadRegs_run (bs : List Byte) : (s.loadRegs bs).run = s.run := rfl
@[simp] theorem loadRegs_cause (bs : List Byte) : (s.loadRegs bs).cause = s.cause := rfl
@[simp] theorem loadRegs_faultPc (bs : List Byte) : (s.loadRegs bs).faultPc = s.faultPc := rfl
@[simp] theorem loadRegs_faultAddr (bs : List Byte) : (s.loadRegs bs).faultAddr = s.faultAddr := rfl
@[simp] theorem loadRegs_sched (bs : List Byte) : (s.loadRegs bs).sched = s.sched := rfl
@[simp] theorem loadRegs_phase (bs : List Byte) : (s.loadRegs bs).phase = s.phase := rfl
@[simp] theorem loadRegs_draws (bs : List Byte) : (s.loadRegs bs).draws = s.draws := rfl
@[simp] theorem loadRegs_ticks (bs : List Byte) : (s.loadRegs bs).ticks = s.ticks := rfl
@[simp] theorem loadRegs_events (bs : List Byte) : (s.loadRegs bs).events = s.events := rfl

/-! ### `I <- a` -/

@[simp] theorem setIdx_v (a : Word) : (s.setIdx a).v = s.v := rfl
@[simp] theorem setIdx_idx (a : Word) : (s.setIdx a).idx = a := rfl
@[simp] theorem setIdx_pc (a : Word) : (s.setIdx a).pc = s.pc := rfl
@[simp] theorem setIdx_stack (a : Word) : (s.setIdx a).stack = s.stack := rfl
@[simp] theorem setIdx_sp (a : Word) : (s.setIdx a).sp = s.sp := rfl
@[simp] theorem setIdx_fb (a : Word) : (s.setIdx a).fb = s.fb := rfl
@[simp] theorem setIdx_dirty (a : Word) : (s.setIdx a).dirty = s.dirty := rfl
@[simp] theorem setIdx_dt (a : Word) : (s.setIdx a).dt = s.dt := rfl
@[simp] theorem setIdx_st (a : Word) : (s.setIdx a).st = s.st := rfl
@[simp] theorem setIdx_keys (a : Word) : (s.setIdx a).keys = s.keys := rfl
@[simp] theorem setIdx_mem (a : Word) : (s.setIdx a).mem = s.mem := rfl
@[simp] theorem setIdx_run (a : Word) : (s.setIdx a).run = s.run := rfl
@[simp] theorem setIdx_cause (a : Word) : (s.setIdx a).cause = s.cause := rfl
@[simp] theorem setIdx_faultPc (a : Word) : (s.setIdx a).faultPc = s.faultPc := rfl
@[simp] theorem setIdx_faultAddr (a : Word) : (s.setIdx a).faultAddr = s.faultAddr := rfl
@[simp] theorem setIdx_sched (a : Word) : (s.setIdx a).sched = s.sched := rfl
@[simp] theorem setIdx_phase (a : Word) : (s.setIdx a).phase = s.phase := rfl
@[simp] theorem setIdx_draws (a : Word) : (s.setIdx a).draws = s.draws := rfl
@[simp] theorem setIdx_ticks (a : Word) : (s.setIdx a).ticks = s.ticks := rfl
@[simp] theorem setIdx_events (a : Word) : (s.setIdx a).events = s.events := rfl

/-! ### `PC <- a` -/

@[simp] theorem jumpTo_v (a : Word) : (s.jumpTo a).v = s.v := rfl
@[simp] theorem jumpTo_idx (a : Word) : (s.jumpTo a).idx = s.idx := rfl
@[simp] theorem jumpTo_pc (a : Word) : (s.jumpTo a).pc = a := rfl
@[simp] theorem jumpTo_stack (a : Word) : (s.jumpTo a).stack = s.stack := rfl
@[simp] theorem jumpTo_sp (a : Word) : (s.jumpTo a).sp = s.sp := rfl
@[simp] theorem jumpTo_fb (a : Word) : (s.jumpTo a).fb = s.fb := rfl
@[simp] theorem jumpTo_dirty (a : Word) : (s.jumpTo a).dirty = s.dirty := rfl
@[simp] theorem jumpTo_dt (a : Word) : (s.jumpTo a).dt = s.dt := rfl
@[simp] theorem jumpTo_st (a : Word) : (s.jumpTo a).st = s.st := rfl
@[simp] theorem jumpTo_keys (a : Word) : (s.jumpTo a).keys = s.keys := rfl
@[simp] theorem jumpTo_mem (a : Word) : (s.jumpTo a).mem = s.mem := rfl
@[simp] theorem jumpTo_run (a : Word) : (s.jumpTo a).run = s.run := rfl
@[simp] theorem jumpTo_cause (a : Word) : (s.jumpTo a).cause = s.cause := rfl
@[simp] theorem jumpTo_faultPc (a : Word) : (s.jumpTo a).faultPc = s.faultPc := rfl
@[simp] theorem jumpTo_faultAddr (a : Word) : (s.jumpTo a).faultAddr = s.faultAddr := rfl
@[simp] theorem jumpTo_sched (a : Word) : (s.jumpTo a).sched = s.sched := rfl
@[simp] theorem jumpTo_phase (a : Word) : (s.jumpTo a).phase = s.phase := rfl
@[simp] theorem jumpTo_draws (a : Word) : (s.jumpTo a).draws = s.draws := rfl
@[simp] theorem jumpTo_ticks (a : Word) : (s.jumpTo a).ticks = s.ticks := rfl
@[simp] theorem jumpTo_events (a : Word) : (s.jumpTo a).events = s.events := rfl

/-! ### the default advance -/

@[simp] theorem advance_v : s.advance.v = s.v := rfl
@[simp] theorem advance_idx : s.advance.idx = s.idx := rfl
@[simp] theorem advance_pc : s.advance.pc = s.pc + 2 := rfl
@[simp] theorem advance_stack : s.advance.stack = s.stack := rfl
@[simp] theorem advance_sp : s.advance.sp = s.sp := rfl
@[simp] theorem advance_fb : s.advance.fb = s.fb := rfl
@[simp] theorem advance_dirty : s.advance.dirty = s.dirty := rfl
@[simp] theorem advance_dt : s.advance.dt = s.dt := rfl
@[simp] theorem advance_st : s.advance.st = s.st := rfl
@[simp] theorem advance_keys : s.advance.keys = s.keys := rfl
@[simp] theorem advance_mem : s.advance.mem = s.mem := rfl
@[simp] theorem advance_run : s.advance.run = s.run := rfl
@[simp] theorem advance_cause : s.advance.cause = s.cause := rfl
@[simp] theorem advance_faultPc : s.advance.faultPc = s.faultPc := rfl
@[simp] theorem advance_faultAddr : s.advance.faultAddr = s.faultAddr := rfl
@[simp] theorem advance_sched : s.advance.sched = s.sched := rfl
@[simp] theorem advance_phase : s.advance.phase = s.phase := rfl
@[simp] theorem advance_draws : s.advance.draws = s.draws := rfl
@[simp] theorem advance_ticks : s.advance.ticks = s.ticks := rfl
@[simp] theorem advance_events : s.advance.events = s.events := rfl

/-! ### a conditional skip -/

@[simp] theorem skipIf_v (c : Bool) : (s.skipIf c).v = s.v := rfl
@[simp] theorem skipIf_idx (c : Bool) : (s.skipIf c).idx = s.idx := rfl
@[simp] theorem skipIf_pc (c : Bool) : (s.skipIf c).pc = s.pc + if c then 4 else 2 := rfl
@[simp] theorem skipIf_stack (c : Bool) : (s.skipIf c).stack = s.stack := rfl
@[simp] theorem skipIf_sp (c : Bool) : (s.skipIf c).sp = s.sp := rfl
@[simp] theorem skipIf_fb (c : Bool) : (s.skipIf c).fb = s.fb := rfl
@[simp] theorem skipIf_dirty (c : Bool) : (s.skipIf c).dirty = s.dirty := rfl
@[simp] theorem skipIf_dt (c : Bool) : (s.skipIf c).dt = s.dt := rfl
@[simp] theorem skipIf_st (c : Bool) : (s.skipIf c).st = s.st := rfl
@[simp] theorem skipIf_keys (c : Bool) : (s.skipIf c).keys = s.keys := rfl
@[simp] theorem skipIf_mem (c : Bool) : (s.skipIf c).mem = s.mem := rfl
@[simp] theorem skipIf_run (c : Bool) : (s.skipIf c).run = s.run := rfl
@[simp] theorem skipIf_cause (c : Bool) : (s.skipIf c).cause = s.cause := rfl
@[simp] theorem skipIf_faultPc (c : Bool) : (s.skipIf c).faultPc = s.faultPc := rfl
@[simp] theorem skipIf_faultAddr (c : Bool) : (s.skipIf c).faultAddr = s.faultAddr := rfl
@[simp] theorem skipIf_sched (c : Bool) : (s.skipIf c).sched = s.sched := rfl
@[simp] theorem skipIf_phase (c : Bool) : (s.skipIf c).phase = s.phase := rfl
@[simp] theorem skipIf_draws (c : Bool) : (s.skipIf c).draws = s.draws := rfl
@[simp] theorem skipIf_ticks (c : Bool) : (s.skipIf c).ticks = s.ticks := rfl
@[simp] theorem skipIf_events (c : Bool) : (s.skipIf c).events = s.events := rfl

/-! ### emitting an event -/

@[simp] theorem emit_v (e : Event) : (s.emit e).v = s.v := rfl
@[simp] theorem emit_idx (e : Event) : (s.emit e).idx = s.idx := rfl
@[simp] theorem emit_pc (e : Event) : (s.emit e).pc = s.pc := rfl
@[simp] theorem emit_stack (e : Event) : (s.emit e).stack = s.stack := rfl
@[simp] theorem emit_sp (e : Event) : (s.emit e).sp = s.sp := rfl
@[simp] theorem emit_fb (e : Event) : (s.emit e).fb = s.fb := rfl
@[simp] theorem emit_dirty (e : Event) : (s.emit e).dirty = s.dirty := rfl
@[simp] theorem emit_dt (e : Event) : (s.emit e).dt = s.dt := rfl
@[simp] theorem emit_st (e : Event) : (s.emit e).st = s.st := rfl
@[simp] theorem emit_keys (e : Event) : (s.emit e).keys = s.keys := rfl
@[simp] theorem emit_mem (e : Event) : (s.emit e).mem = s.mem := rfl
@[simp] theorem emit_run (e : Event) : (s.emit e).run = s.run := rfl
@[simp] theorem emit_cause (e : Event) : (s.emit e).cause = s.cause := rfl
@[simp] theorem emit_faultPc (e : Event) : (s.emit e).faultPc = s.faultPc := rfl
@[simp] theorem emit_faultAddr (e : Event) : (s.emit e).faultAddr = s.faultAddr := rfl
@[simp] theorem emit_sched (e : Event) : (s.emit e).sched = s.sched := rfl
@[simp] theorem emit_phase (e : Event) : (s.emit e).phase = s.phase := rfl
@[simp] theorem emit_draws (e : Event) : (s.emit e).draws = s.draws := rfl
@[simp] theorem emit_ticks (e : Event) : (s.emit e).ticks = s.ticks := rfl
@[simp] theorem emit_events (e : Event) : (s.emit e).events = e :: s.events := rfl

/-! ### taking a fault -/

@[simp] theorem raise_v (c : Cause) (a : Word) : (s.raise c a).v = s.v := rfl
@[simp] theorem raise_idx (c : Cause) (a : Word) : (s.raise c a).idx = s.idx := rfl
@[simp] theorem raise_pc (c : Cause) (a : Word) : (s.raise c a).pc = s.pc := rfl
@[simp] theorem raise_stack (c : Cause) (a : Word) : (s.raise c a).stack = s.stack := rfl
@[simp] theorem raise_sp (c : Cause) (a : Word) : (s.raise c a).sp = s.sp := rfl
@[simp] theorem raise_fb (c : Cause) (a : Word) : (s.raise c a).fb = s.fb := rfl
@[simp] theorem raise_dirty (c : Cause) (a : Word) : (s.raise c a).dirty = s.dirty := rfl
@[simp] theorem raise_dt (c : Cause) (a : Word) : (s.raise c a).dt = s.dt := rfl
@[simp] theorem raise_st (c : Cause) (a : Word) : (s.raise c a).st = s.st := rfl
@[simp] theorem raise_keys (c : Cause) (a : Word) : (s.raise c a).keys = s.keys := rfl
@[simp] theorem raise_mem (c : Cause) (a : Word) : (s.raise c a).mem = s.mem := rfl
@[simp] theorem raise_run (c : Cause) (a : Word) : (s.raise c a).run = .halted := rfl
@[simp] theorem raise_cause (c : Cause) (a : Word) : (s.raise c a).cause = c := rfl
@[simp] theorem raise_faultPc (c : Cause) (a : Word) : (s.raise c a).faultPc = s.pc := rfl
@[simp] theorem raise_faultAddr (c : Cause) (a : Word) : (s.raise c a).faultAddr = a := rfl
@[simp] theorem raise_sched (c : Cause) (a : Word) : (s.raise c a).sched = s.sched := rfl
@[simp] theorem raise_phase (c : Cause) (a : Word) : (s.raise c a).phase = s.phase := rfl
@[simp] theorem raise_draws (c : Cause) (a : Word) : (s.raise c a).draws = s.draws := rfl
@[simp] theorem raise_ticks (c : Cause) (a : Word) : (s.raise c a).ticks = s.ticks := rfl
@[simp] theorem raise_events (c : Cause) (a : Word) : (s.raise c a).events = s.events := rfl

/-! ### `VF <- flag` -/

@[simp] theorem setFlag_v (f : Bool) : (s.setFlag f).v = s.v.set VF (flagByte f) := rfl
@[simp] theorem setFlag_idx (f : Bool) : (s.setFlag f).idx = s.idx := rfl
@[simp] theorem setFlag_pc (f : Bool) : (s.setFlag f).pc = s.pc := rfl
@[simp] theorem setFlag_stack (f : Bool) : (s.setFlag f).stack = s.stack := rfl
@[simp] theorem setFlag_sp (f : Bool) : (s.setFlag f).sp = s.sp := rfl
@[simp] theorem setFlag_fb (f : Bool) : (s.setFlag f).fb = s.fb := rfl
@[simp] theorem setFlag_dirty (f : Bool) : (s.setFlag f).dirty = s.dirty := rfl
@[simp] theorem setFlag_dt (f : Bool) : (s.setFlag f).dt = s.dt := rfl
@[simp] theorem setFlag_st (f : Bool) : (s.setFlag f).st = s.st := rfl
@[simp] theorem setFlag_keys (f : Bool) : (s.setFlag f).keys = s.keys := rfl
@[simp] theorem setFlag_mem (f : Bool) : (s.setFlag f).mem = s.mem := rfl
@[simp] theorem setFlag_run (f : Bool) : (s.setFlag f).run = s.run := rfl
@[simp] theorem setFlag_cause (f : Bool) : (s.setFlag f).cause = s.cause := rfl
@[simp] theorem setFlag_faultPc (f : Bool) : (s.setFlag f).faultPc = s.faultPc := rfl
@[simp] theorem setFlag_faultAddr (f : Bool) : (s.setFlag f).faultAddr = s.faultAddr := rfl
@[simp] theorem setFlag_sched (f : Bool) : (s.setFlag f).sched = s.sched := rfl
@[simp] theorem setFlag_phase (f : Bool) : (s.setFlag f).phase = s.phase := rfl
@[simp] theorem setFlag_draws (f : Bool) : (s.setFlag f).draws = s.draws := rfl
@[simp] theorem setFlag_ticks (f : Bool) : (s.setFlag f).ticks = s.ticks := rfl
@[simp] theorem setFlag_events (f : Bool) : (s.setFlag f).events = s.events := rfl

/-! ### a flag-writing result -/

@[simp] theorem writeFlagged_v (x : Reg) (f : Bool) (b : Byte) : (s.writeFlagged x f b).v = (s.v.set VF (flagByte f)).set x b := rfl
@[simp] theorem writeFlagged_idx (x : Reg) (f : Bool) (b : Byte) : (s.writeFlagged x f b).idx = s.idx := rfl
@[simp] theorem writeFlagged_pc (x : Reg) (f : Bool) (b : Byte) : (s.writeFlagged x f b).pc = s.pc + 2 := rfl
@[simp] theorem writeFlagged_stack (x : Reg) (f : Bool) (b : Byte) : (s.writeFlagged x f b).stack = s.stack := rfl
@[simp] theorem writeFlagged_sp (x : Reg) (f : Bool) (b : Byte) : (s.writeFlagged x f b).sp = s.sp := rfl
@[simp] theorem writeFlagged_fb (x : Reg) (f : Bool) (b : Byte) : (s.writeFlagged x f b).fb = s.fb := rfl
@[simp] theorem writeFlagged_dirty (x : Reg) (f : Bool) (b : Byte) : (s.writeFlagged x f b).dirty = s.dirty := rfl
@[simp] theorem writeFlagged_dt (x : Reg) (f : Bool) (b : Byte) : (s.writeFlagged x f b).dt = s.dt := rfl
@[simp] theorem writeFlagged_st (x : Reg) (f : Bool) (b : Byte) : (s.writeFlagged x f b).st = s.st := rfl
@[simp] theorem writeFlagged_keys (x : Reg) (f : Bool) (b : Byte) : (s.writeFlagged x f b).keys = s.keys := rfl
@[simp] theorem writeFlagged_mem (x : Reg) (f : Bool) (b : Byte) : (s.writeFlagged x f b).mem = s.mem := rfl
@[simp] theorem writeFlagged_run (x : Reg) (f : Bool) (b : Byte) : (s.writeFlagged x f b).run = s.run := rfl
@[simp] theorem writeFlagged_cause (x : Reg) (f : Bool) (b : Byte) : (s.writeFlagged x f b).cause = s.cause := rfl
@[simp] theorem writeFlagged_faultPc (x : Reg) (f : Bool) (b : Byte) : (s.writeFlagged x f b).faultPc = s.faultPc := rfl
@[simp] theorem writeFlagged_faultAddr (x : Reg) (f : Bool) (b : Byte) : (s.writeFlagged x f b).faultAddr = s.faultAddr := rfl
@[simp] theorem writeFlagged_sched (x : Reg) (f : Bool) (b : Byte) : (s.writeFlagged x f b).sched = s.sched := rfl
@[simp] theorem writeFlagged_phase (x : Reg) (f : Bool) (b : Byte) : (s.writeFlagged x f b).phase = s.phase := rfl
@[simp] theorem writeFlagged_draws (x : Reg) (f : Bool) (b : Byte) : (s.writeFlagged x f b).draws = s.draws := rfl
@[simp] theorem writeFlagged_ticks (x : Reg) (f : Bool) (b : Byte) : (s.writeFlagged x f b).ticks = s.ticks := rfl
@[simp] theorem writeFlagged_events (x : Reg) (f : Bool) (b : Byte) : (s.writeFlagged x f b).events = s.events := rfl

/-! ### a masked random byte -/

@[simp] theorem storeMasked_v (x : Reg) (r kk : Byte) : (s.storeMasked x r kk).v = s.v.set x (r &&& kk) := rfl
@[simp] theorem storeMasked_idx (x : Reg) (r kk : Byte) : (s.storeMasked x r kk).idx = s.idx := rfl
@[simp] theorem storeMasked_pc (x : Reg) (r kk : Byte) : (s.storeMasked x r kk).pc = s.pc + 2 := rfl
@[simp] theorem storeMasked_stack (x : Reg) (r kk : Byte) : (s.storeMasked x r kk).stack = s.stack := rfl
@[simp] theorem storeMasked_sp (x : Reg) (r kk : Byte) : (s.storeMasked x r kk).sp = s.sp := rfl
@[simp] theorem storeMasked_fb (x : Reg) (r kk : Byte) : (s.storeMasked x r kk).fb = s.fb := rfl
@[simp] theorem storeMasked_dirty (x : Reg) (r kk : Byte) : (s.storeMasked x r kk).dirty = s.dirty := rfl
@[simp] theorem storeMasked_dt (x : Reg) (r kk : Byte) : (s.storeMasked x r kk).dt = s.dt := rfl
@[simp] theorem storeMasked_st (x : Reg) (r kk : Byte) : (s.storeMasked x r kk).st = s.st := rfl
@[simp] theorem storeMasked_keys (x : Reg) (r kk : Byte) : (s.storeMasked x r kk).keys = s.keys := rfl
@[simp] theorem storeMasked_mem (x : Reg) (r kk : Byte) : (s.storeMasked x r kk).mem = s.mem := rfl
@[simp] theorem storeMasked_run (x : Reg) (r kk : Byte) : (s.storeMasked x r kk).run = s.run := rfl
@[simp] theorem storeMasked_cause (x : Reg) (r kk : Byte) : (s.storeMasked x r kk).cause = s.cause := rfl
@[simp] theorem storeMasked_faultPc (x : Reg) (r kk : Byte) : (s.storeMasked x r kk).faultPc = s.faultPc := rfl
@[simp] theorem storeMasked_faultAddr (x : Reg) (r kk : Byte) : (s.storeMasked x r kk).faultAddr = s.faultAddr := rfl
@[simp] theorem storeMasked_sched (x : Reg) (r kk : Byte) : (s.storeMasked x r kk).sched = s.sched := rfl
@[simp] theorem storeMasked_phase (x : Reg) (r kk : Byte) : (s.storeMasked x r kk).phase = s.phase := rfl
@[simp] theorem storeMasked_draws (x : Reg) (r kk : Byte) : (s.storeMasked x r kk).draws = s.draws := rfl
@[simp] theorem storeMasked_ticks (x : Reg) (r kk : Byte) : (s.storeMasked x r kk).ticks = s.ticks := rfl
@[simp] theorem storeMasked_events (x : Reg) (r kk : Byte) : (s.storeMasked x r kk).events = s.events := rfl

/-! ### changing the framebuffer -/

@[simp] theorem setDisplay_v (f : Framebuffer) : (s.setDisplay f).v = s.v := rfl
@[simp] theorem setDisplay_idx (f : Framebuffer) : (s.setDisplay f).idx = s.idx := rfl
@[simp] theorem setDisplay_pc (f : Framebuffer) : (s.setDisplay f).pc = s.pc := rfl
@[simp] theorem setDisplay_stack (f : Framebuffer) : (s.setDisplay f).stack = s.stack := rfl
@[simp] theorem setDisplay_sp (f : Framebuffer) : (s.setDisplay f).sp = s.sp := rfl
@[simp] theorem setDisplay_fb (f : Framebuffer) : (s.setDisplay f).fb = f := rfl
@[simp] theorem setDisplay_dirty (f : Framebuffer) : (s.setDisplay f).dirty = true := rfl
@[simp] theorem setDisplay_dt (f : Framebuffer) : (s.setDisplay f).dt = s.dt := rfl
@[simp] theorem setDisplay_st (f : Framebuffer) : (s.setDisplay f).st = s.st := rfl
@[simp] theorem setDisplay_keys (f : Framebuffer) : (s.setDisplay f).keys = s.keys := rfl
@[simp] theorem setDisplay_mem (f : Framebuffer) : (s.setDisplay f).mem = s.mem := rfl
@[simp] theorem setDisplay_run (f : Framebuffer) : (s.setDisplay f).run = s.run := rfl
@[simp] theorem setDisplay_cause (f : Framebuffer) : (s.setDisplay f).cause = s.cause := rfl
@[simp] theorem setDisplay_faultPc (f : Framebuffer) : (s.setDisplay f).faultPc = s.faultPc := rfl
@[simp] theorem setDisplay_faultAddr (f : Framebuffer) : (s.setDisplay f).faultAddr = s.faultAddr := rfl
@[simp] theorem setDisplay_sched (f : Framebuffer) : (s.setDisplay f).sched = s.sched := rfl
@[simp] theorem setDisplay_phase (f : Framebuffer) : (s.setDisplay f).phase = s.phase := rfl
@[simp] theorem setDisplay_draws (f : Framebuffer) : (s.setDisplay f).draws = s.draws := rfl
@[simp] theorem setDisplay_ticks (f : Framebuffer) : (s.setDisplay f).ticks = s.ticks := rfl
@[simp] theorem setDisplay_events (f : Framebuffer) : (s.setDisplay f).events = s.events := rfl

/-! ### the start of a tick -/

@[simp] theorem decTimers_v : s.decTimers.v = s.v := rfl
@[simp] theorem decTimers_idx : s.decTimers.idx = s.idx := rfl
@[simp] theorem decTimers_pc : s.decTimers.pc = s.pc := rfl
@[simp] theorem decTimers_stack : s.decTimers.stack = s.stack := rfl
@[simp] theorem decTimers_sp : s.decTimers.sp = s.sp := rfl
@[simp] theorem decTimers_fb : s.decTimers.fb = s.fb := rfl
@[simp] theorem decTimers_dirty : s.decTimers.dirty = s.dirty := rfl
@[simp] theorem decTimers_dt : s.decTimers.dt = timerTick s.dt := rfl
@[simp] theorem decTimers_st : s.decTimers.st = timerTick s.st := rfl
@[simp] theorem decTimers_keys : s.decTimers.keys = s.keys := rfl
@[simp] theorem decTimers_mem : s.decTimers.mem = s.mem := rfl
@[simp] theorem decTimers_run : s.decTimers.run = s.run := rfl
@[simp] theorem decTimers_cause : s.decTimers.cause = s.cause := rfl
@[simp] theorem decTimers_faultPc : s.decTimers.faultPc = s.faultPc := rfl
@[simp] theorem decTimers_faultAddr : s.decTimers.faultAddr = s.faultAddr := rfl
@[simp] theorem decTimers_sched : s.decTimers.sched = s.sched := rfl
@[simp] theorem decTimers_phase : s.decTimers.phase = s.phase := rfl
@[simp] theorem decTimers_draws : s.decTimers.draws = s.draws := rfl
@[simp] theorem decTimers_ticks : s.decTimers.ticks = s.ticks := rfl
@[simp] theorem decTimers_events : s.decTimers.events = s.events := rfl

/-! ### the key latch -/

@[simp] theorem latchKeys_v (k : Keys) : (s.latchKeys k).v = s.v := rfl
@[simp] theorem latchKeys_idx (k : Keys) : (s.latchKeys k).idx = s.idx := rfl
@[simp] theorem latchKeys_pc (k : Keys) : (s.latchKeys k).pc = s.pc := rfl
@[simp] theorem latchKeys_stack (k : Keys) : (s.latchKeys k).stack = s.stack := rfl
@[simp] theorem latchKeys_sp (k : Keys) : (s.latchKeys k).sp = s.sp := rfl
@[simp] theorem latchKeys_fb (k : Keys) : (s.latchKeys k).fb = s.fb := rfl
@[simp] theorem latchKeys_dirty (k : Keys) : (s.latchKeys k).dirty = s.dirty := rfl
@[simp] theorem latchKeys_dt (k : Keys) : (s.latchKeys k).dt = s.dt := rfl
@[simp] theorem latchKeys_st (k : Keys) : (s.latchKeys k).st = s.st := rfl
@[simp] theorem latchKeys_keys (k : Keys) : (s.latchKeys k).keys = k := rfl
@[simp] theorem latchKeys_mem (k : Keys) : (s.latchKeys k).mem = s.mem := rfl
@[simp] theorem latchKeys_run (k : Keys) : (s.latchKeys k).run = s.run := rfl
@[simp] theorem latchKeys_cause (k : Keys) : (s.latchKeys k).cause = s.cause := rfl
@[simp] theorem latchKeys_faultPc (k : Keys) : (s.latchKeys k).faultPc = s.faultPc := rfl
@[simp] theorem latchKeys_faultAddr (k : Keys) : (s.latchKeys k).faultAddr = s.faultAddr := rfl
@[simp] theorem latchKeys_sched (k : Keys) : (s.latchKeys k).sched = s.sched := rfl
@[simp] theorem latchKeys_phase (k : Keys) : (s.latchKeys k).phase = s.phase := rfl
@[simp] theorem latchKeys_draws (k : Keys) : (s.latchKeys k).draws = s.draws := rfl
@[simp] theorem latchKeys_ticks (k : Keys) : (s.latchKeys k).ticks = s.ticks := rfl
@[simp] theorem latchKeys_events (k : Keys) : (s.latchKeys k).events = s.events := rfl

/-! ### the end of a cycle -/

@[simp] theorem endCycle_v (m : Nat) : (s.endCycle m).v = s.v := rfl
@[simp] theorem endCycle_idx (m : Nat) : (s.endCycle m).idx = s.idx := rfl
@[simp] theorem endCycle_pc (m : Nat) : (s.endCycle m).pc = s.pc := rfl
@[simp] theorem endCycle_stack (m : Nat) : (s.endCycle m).stack = s.stack := rfl
@[simp] theorem endCycle_sp (m : Nat) : (s.endCycle m).sp = s.sp := rfl
@[simp] theorem endCycle_fb (m : Nat) : (s.endCycle m).fb = s.fb := rfl
@[simp] theorem endCycle_dirty (m : Nat) : (s.endCycle m).dirty = s.dirty := rfl
@[simp] theorem endCycle_dt (m : Nat) : (s.endCycle m).dt = s.dt := rfl
@[simp] theorem endCycle_st (m : Nat) : (s.endCycle m).st = s.st := rfl
@[simp] theorem endCycle_keys (m : Nat) : (s.endCycle m).keys = s.keys := rfl
@[simp] theorem endCycle_mem (m : Nat) : (s.endCycle m).mem = s.mem := rfl
@[simp] theorem endCycle_run (m : Nat) : (s.endCycle m).run = s.run := rfl
@[simp] theorem endCycle_cause (m : Nat) : (s.endCycle m).cause = s.cause := rfl
@[simp] theorem endCycle_faultPc (m : Nat) : (s.endCycle m).faultPc = s.faultPc := rfl
@[simp] theorem endCycle_faultAddr (m : Nat) : (s.endCycle m).faultAddr = s.faultAddr := rfl
@[simp] theorem endCycle_sched (m : Nat) : (s.endCycle m).sched = s.sched := rfl
@[simp] theorem endCycle_draws (m : Nat) : (s.endCycle m).draws = s.draws := rfl
@[simp] theorem endCycle_ticks (m : Nat) : (s.endCycle m).ticks = s.ticks := rfl
@[simp] theorem endCycle_events (m : Nat) : (s.endCycle m).events = s.events := rfl

/-! ### a random draw -/

@[simp] theorem drawRand_fst : s.drawRand.1 = Config.randByte s.draws := rfl

@[simp] theorem drawRand_snd : s.drawRand.2 = { s with draws := s.draws + 1 } := rfl

/-! ### the phase after a cycle -/

@[simp] theorem endCycle_phase_zero : (s.endCycle 0).phase = .tickEnd := rfl

@[simp] theorem endCycle_phase_succ (m : Nat) : (s.endCycle (m + 1)).phase = .engine m := rfl

/-! ### readings -/

theorem readByte_of_mem {s t : State} (h : t.mem = s.mem) (a : Nat) : t.readByte a = s.readByte a := by
  simp [State.readByte, h]

theorem reg_of_v {s t : State} (h : t.v = s.v) (r : Reg) : t.reg r = s.reg r := by
  simp [State.reg, h]

/-- Reading a register after one is written. -/
@[simp] theorem reg_setReg (x r : Reg) (b : Byte) : (s.setReg x b).reg r = if r = x then b else s.reg r := by
  simp only [State.reg, State.setReg, Fin.getElem_fin, Vector.getElem_set, Fin.ext_iff, eq_comm]

/-- Reading a register after registers are loaded from bytes. -/
@[simp] theorem reg_loadRegs (bs : List Byte) (r : Reg) : (s.loadRegs bs).reg r = bs.getD r.val (s.reg r) := by
  simp [State.reg, State.loadRegs]

/-- Reading a register after a flag-writing result: for `x = 15` the result stays (41_load_alu.md R146). -/
@[simp] theorem reg_writeFlagged (x r : Reg) (f : Bool) (b : Byte) :
    (s.writeFlagged x f b).reg r = if r = x then b else if r = VF then flagByte f else s.reg r := by
  have h : (s.writeFlagged x f b).reg r = ((s.setFlag f).setReg x b).reg r := rfl
  rw [h, reg_setReg, State.setFlag, reg_setReg]

end Sys2Proof.Machine
end

