-- ==== Sys2Proof/Laws/Memory.lean ====
section
/-! SUPPORT. What the memory operations do: reading after writing, the canonical form is kept and is unique. -/

namespace Sys2Proof.Machine

/-! ### One byte -/

/-- A write leaves every other address alone. -/
theorem Memory.read_write_ne (m : Memory) {a a' : Nat} (b : Byte) (h : a' ≠ a) :
    (m.write a b).read a' = m.read a' := by
  induction m with
  | nil =>
    simp only [Memory.write]
    split <;> simp [Memory.read, h.symm]
  | cons kc rest ih =>
    obtain ⟨k, c⟩ := kc
    simp only [Memory.write]
    split_ifs with h₁ h₂ h₃ h₄
    · rfl
    · simp [Memory.read, h.symm]
    · subst h₃; simp [Memory.read, h.symm]
    · subst h₃; simp [Memory.read, h.symm]
    · simp only [Memory.read]; split <;> [rfl; exact ih]

/-- Below its first address a canonical list reads as unlisted. -/
theorem Memory.read_below {m : Memory} {lo a : Nat} (hwf : Memory.wfFrom lo m = true) (h : a < lo) :
    m.read a = initialByte a := by
  induction m generalizing lo with
  | nil => rfl
  | cons kc rest ih =>
    obtain ⟨k, c⟩ := kc
    simp only [Memory.wfFrom, Bool.and_eq_true, decide_eq_true_eq] at hwf
    rw [Memory.read, if_neg (by omega)]
    exact ih hwf.2 (by omega)

/-- A write to a canonical list is read back. -/
theorem Memory.read_write_same_from {m : Memory} {lo : Nat} (a : Nat) (b : Byte) (hwf : Memory.wfFrom lo m = true) :
    (m.write a b).read a = b := by
  induction m generalizing lo with
  | nil =>
    simp only [Memory.write]
    split <;> simp_all [Memory.read]
  | cons kc rest ih =>
    obtain ⟨k, c⟩ := kc
    simp only [Memory.wfFrom, Bool.and_eq_true, decide_eq_true_eq] at hwf
    simp only [Memory.write]
    split_ifs with h₁ h₂ h₃ h₄
    · rw [Memory.read, if_neg (by omega), Memory.read_below hwf.2 (by omega), h₂]
    · simp [Memory.read]
    · rw [Memory.read_below hwf.2 (by omega), h₄]
    · simp [Memory.read]
    · rw [Memory.read, if_neg (by omega)]; exact ih hwf.2

theorem Memory.read_write_same {m : Memory} (a : Nat) (b : Byte) (hwf : m.wf = true) : (m.write a b).read a = b :=
  Memory.read_write_same_from a b hwf

/-- The canonical form from a later address is the canonical form from an earlier one. -/
theorem Memory.wfFrom_mono {m : Memory} {lo lo' : Nat} (h : lo' ≤ lo) (hwf : Memory.wfFrom lo m = true) :
    Memory.wfFrom lo' m = true := by
  cases m with
  | nil => rfl
  | cons kc rest =>
    obtain ⟨k, c⟩ := kc
    simp only [Memory.wfFrom, Bool.and_eq_true, decide_eq_true_eq] at hwf ⊢
    exact ⟨⟨⟨by omega, hwf.1.1.2⟩, hwf.1.2⟩, hwf.2⟩

/-- A write inside memory keeps the canonical form. -/
theorem Memory.wfFrom_write {m : Memory} {lo a : Nat} (b : Byte) (hwf : Memory.wfFrom lo m = true) (hlo : lo ≤ a)
    (ha : a < Config.memSize) : Memory.wfFrom lo (m.write a b) = true := by
  simp only [Config.memSize] at ha
  induction m generalizing lo with
  | nil =>
    simp only [Memory.write]
    split <;> simp_all [Memory.wfFrom]
  | cons kc rest ih =>
    obtain ⟨k, c⟩ := kc
    have hall := hwf
    simp only [Memory.wfFrom, Bool.and_eq_true, decide_eq_true_eq, Config.memSize] at hwf
    simp only [Memory.write]
    split_ifs with h₁ h₂ h₃ h₄
    · exact hall
    · simp only [Memory.wfFrom, Bool.and_eq_true, decide_eq_true_eq, Config.memSize]
      exact ⟨⟨⟨hlo, ha⟩, h₂⟩, ⟨⟨by omega, hwf.1.1.2⟩, hwf.1.2⟩, hwf.2⟩
    · exact Memory.wfFrom_mono (by omega) hwf.2
    · simp only [Memory.wfFrom, Bool.and_eq_true, decide_eq_true_eq, Config.memSize]
      exact ⟨⟨⟨hlo, ha⟩, h₄⟩, by rw [h₃]; exact hwf.2⟩
    · simp only [Memory.wfFrom, Bool.and_eq_true, decide_eq_true_eq, Config.memSize]
      exact ⟨hwf.1, ih hwf.2 (by omega)⟩

theorem Memory.wf_write {m : Memory} {a : Nat} (b : Byte) (hwf : m.wf = true) (ha : a < Config.memSize) :
    (m.write a b).wf = true :=
  Memory.wfFrom_write b hwf (Nat.zero_le a) ha

/-- An address a canonical list holds does not read as unlisted. -/
theorem Memory.read_head_ne {m : Memory} {lo k : Nat} {c : Byte} (hwf : Memory.wfFrom lo ((k, c) :: m) = true) :
    Memory.read ((k, c) :: m) k ≠ initialByte k := by
  simp only [Memory.wfFrom, Bool.and_eq_true, decide_eq_true_eq] at hwf
  simpa [Memory.read] using hwf.1.2

/-- The canonical form is unique: memories that read alike are the same list. -/
theorem Memory.wfFrom_ext {m m' : Memory} {lo : Nat} (hwf : Memory.wfFrom lo m = true)
    (hwf' : Memory.wfFrom lo m' = true) (h : ∀ a, m.read a = m'.read a) : m = m' := by
  induction m generalizing lo m' with
  | nil =>
    cases m' with
    | nil => rfl
    | cons kc rest =>
      obtain ⟨k, c⟩ := kc
      exact absurd (h k).symm (Memory.read_head_ne hwf')
  | cons kc rest ih =>
    obtain ⟨k, c⟩ := kc
    cases m' with
    | nil => exact absurd (h k) (Memory.read_head_ne hwf)
    | cons kc' rest' =>
      obtain ⟨k', c'⟩ := kc'
      have hne := Memory.read_head_ne hwf
      have hne' := Memory.read_head_ne hwf'
      simp only [Memory.wfFrom, Bool.and_eq_true, decide_eq_true_eq] at hwf hwf'
      have hk : k = k' := by
        rcases Nat.lt_trichotomy k k' with hlt | heq | hgt
        · rw [h k, Memory.read, if_neg (by omega), Memory.read_below hwf'.2 (by omega)] at hne
          exact absurd rfl hne
        · exact heq
        · rw [← h k', Memory.read, if_neg (by omega), Memory.read_below hwf.2 (by omega)] at hne'
          exact absurd rfl hne'
      subst hk
      have hc : c = c' := by simpa [Memory.read] using h k
      subst hc
      refine congrArg _ (ih hwf.2 hwf'.2 fun a => ?_)
      by_cases ha : k = a
      · subst ha
        rw [Memory.read_below hwf.2 (by omega), Memory.read_below hwf'.2 (by omega)]
      · simpa [Memory.read, ha] using h a

theorem Memory.wf_ext {m m' : Memory} (hwf : m.wf = true) (hwf' : m'.wf = true) (h : ∀ a, m.read a = m'.read a) :
    m = m' :=
  Memory.wfFrom_ext hwf hwf' h

/-! ### Ranges -/

@[simp] theorem Memory.length_readRange (m : Memory) (a n : Nat) : (m.readRange a n).length = n := by
  simp [Memory.readRange]

theorem Memory.getD_readRange (m : Memory) (a n j : Nat) (d : Byte) :
    (m.readRange a n).getD j d = if j < n then m.read (a + j) else d := by
  by_cases h : j < n <;> simp [Memory.readRange, List.getD_eq_getElem?_getD, h]

theorem Memory.wf_writeRange {m : Memory} {a : Nat} {bs : List Byte} (hwf : m.wf = true)
    (ha : a + bs.length ≤ Config.memSize) : (m.writeRange a bs).wf = true := by
  induction bs generalizing m a with
  | nil => exact hwf
  | cons b bs ih =>
    simp only [List.length_cons] at ha
    exact ih (Memory.wf_write b hwf (by omega)) (by omega)

/-- A range write leaves every address outside the range alone. -/
theorem Memory.read_writeRange_outside (m : Memory) {a a' : Nat} (bs : List Byte)
    (h : a' < a ∨ a + bs.length ≤ a') : (m.writeRange a bs).read a' = m.read a' := by
  induction bs generalizing m a with
  | nil => rfl
  | cons b bs ih =>
    simp only [List.length_cons] at h
    rw [Memory.writeRange, ih _ (by omega), Memory.read_write_ne _ _ (by omega)]

/-- A range write inside memory is read back byte by byte. -/
theorem Memory.read_writeRange_inside {m : Memory} {a j : Nat} {bs : List Byte} (hwf : m.wf = true)
    (ha : a + bs.length ≤ Config.memSize) (hj : j < bs.length) : (m.writeRange a bs).read (a + j) = bs[j] := by
  induction bs generalizing m a j with
  | nil => simp at hj
  | cons b bs ih =>
    simp only [List.length_cons] at ha hj
    rw [Memory.writeRange]
    cases j with
    | zero => rw [Memory.read_writeRange_outside _ _ (by omega)]; exact Memory.read_write_same a b hwf
    | succ j =>
      have := ih (m := m.write a b) (a := a + 1) (j := j) (Memory.wf_write b hwf (by omega)) (by omega) (by omega)
      rw [show a + (j + 1) = a + 1 + j by omega, this]
      rfl

/-! ### The memory primitives of the state -/

@[simp] theorem inBounds_iff (a n : Nat) : inBounds a n = true ↔ a + n ≤ 4096 := by simp [inBounds]

theorem memRead_of_inBounds (s : State) {a n : Nat} (h : a + n ≤ 4096) : s.memRead a n = some (s.mem.readRange a n) := by
  simp [State.memRead, h]

theorem memRead_of_outOfBounds (s : State) {a n : Nat} (h : 4096 < a + n) : s.memRead a n = none := by
  simp [State.memRead]; omega

theorem memWrite_of_inBounds (s : State) {a : Nat} {bs : List Byte} (h : a + bs.length ≤ 4096) :
    s.memWrite a bs = some { s with mem := s.mem.writeRange a bs } := by
  simp [State.memWrite, h]

theorem memWrite_of_outOfBounds (s : State) {a : Nat} {bs : List Byte} (h : 4096 < a + bs.length) :
    s.memWrite a bs = none := by
  simp [State.memWrite]; omega

/-- Everything a store at `I` can do: all its bytes, or the fault with no byte written. -/
theorem storeAtIdx_cases (s : State) (bs : List Byte) :
    (s.idx.toNat + bs.length ≤ 4096 ∧
      s.storeAtIdx bs = { s with mem := s.mem.writeRange s.idx.toNat bs, pc := s.pc + 2 }) ∨
    (4096 < s.idx.toNat + bs.length ∧ s.storeAtIdx bs = s.raise .memRange s.idx) := by
  by_cases h : s.idx.toNat + bs.length ≤ 4096
  · exact .inl ⟨h, by simp only [State.storeAtIdx, State.dataAddr, memWrite_of_inBounds s h]; rfl⟩
  · exact .inr ⟨by omega, by simp only [State.storeAtIdx, State.dataAddr, memWrite_of_outOfBounds s (Nat.lt_of_not_le h)]⟩

@[simp] theorem length_bcdDigits (b : Byte) : (bcdDigits b).length = 3 := rfl

@[simp] theorem length_regsUpTo (s : State) (x : Reg) : (s.regsUpTo x).length = x.val + 1 := by
  simp [State.regsUpTo]

theorem getElem_regsUpTo (s : State) (x : Reg) {j : Nat} (h : j < (s.regsUpTo x).length) :
    (s.regsUpTo x)[j] = s.reg ⟨j, by simp at h; omega⟩ := by
  simp [State.regsUpTo, State.reg]

end Sys2Proof.Machine
end

