-- ==== Sys2Proof/Laws/Display.lean ====
section
/-! SUPPORT. What drawing does, pixel by pixel: the loops of 43_display.md R181 against `spritePixel`. -/

namespace Sys2Proof.Machine

/-! ### One pixel -/

theorem pixel_flip (fb : Framebuffer) (r r' : Fin 32) (c c' : Fin 64) :
    (fb.flip r c).pixel r' c' = (fb.pixel r' c' ^^ decide (r = r' ∧ c = c')) := by
  have hc : (c'.val = c.val) ↔ c = c' := by rw [Fin.ext_iff, eq_comm]
  simp only [Framebuffer.pixel, Framebuffer.flip, Fin.getElem_fin, Vector.getElem_set]
  by_cases hr : r = r'
  · subst hr
    simp [hc]
  · have : ¬ r.val = r'.val := fun h => hr (Fin.ext h)
    simp [hr, this]

@[simp] theorem pixel_clear (r : Fin 32) (c : Fin 64) : Framebuffer.pixel (Vector.replicate 32 0#64) r c = false := by
  simp [Framebuffer.pixel]

/-- Framebuffers with the same pixels are the same. -/
theorem framebuffer_ext {f g : Framebuffer} (h : ∀ r c, f.pixel r c = g.pixel r c) : f = g := by
  apply Vector.ext
  intro r hr
  apply BitVec.eq_of_getLsbD_eq
  intro c hc
  exact h ⟨r, hr⟩ ⟨c, hc⟩

/-! ### A list of sprite bits at distinct pixels -/

/-- A sprite bit and its place. -/
abbrev Cell := Fin 32 × Fin 64 × Bool

/-- Drawing the sprite bits of a list in order. -/
def drawCells (acc : Framebuffer × Bool) (l : List Cell) : Framebuffer × Bool :=
  l.foldl (fun acc q => drawPixel acc q.1 q.2.1 q.2.2) acc

/-- Two sprite bits lie on different pixels. -/
def Apart (p q : Cell) : Prop := p.1 ≠ q.1 ∨ p.2.1 ≠ q.2.1

theorem drawCells_pixel (l : List Cell) (acc : Framebuffer × Bool) (h : l.Pairwise Apart) (r : Fin 32) (c : Fin 64) :
    (drawCells acc l).1.pixel r c = (acc.1.pixel r c ^^ decide ((r, c, true) ∈ l)) := by
  induction l generalizing acc with
  | nil => simp [drawCells]
  | cons q l ih =>
    obtain ⟨r₀, c₀, b⟩ := q
    rw [List.pairwise_cons] at h
    have hfold : drawCells acc ((r₀, c₀, b) :: l) = drawCells (drawPixel acc r₀ c₀ b) l := rfl
    rw [hfold, ih _ h.2]
    cases b with
    | false => simp [drawPixel]
    | true =>
      by_cases hrc : r₀ = r ∧ c₀ = c
      · obtain ⟨rfl, rfl⟩ := hrc
        have hnot : (r₀, c₀, true) ∉ l := fun hm => by simpa [Apart] using h.1 _ hm
        simp [drawPixel, pixel_flip, hnot]
      · have : ¬ (r = r₀ ∧ c = c₀) := fun e => hrc ⟨e.1.symm, e.2.symm⟩
        simp [drawPixel, pixel_flip, hrc, this]

theorem drawCells_collision (l : List Cell) (acc : Framebuffer × Bool) (h : l.Pairwise Apart) :
    (drawCells acc l).2 = true ↔ acc.2 = true ∨ ∃ r c, (r, c, true) ∈ l ∧ acc.1.pixel r c = true := by
  induction l generalizing acc with
  | nil => simp [drawCells]
  | cons q l ih =>
    obtain ⟨r₀, c₀, b⟩ := q
    rw [List.pairwise_cons] at h
    have hfold : drawCells acc ((r₀, c₀, b) :: l) = drawCells (drawPixel acc r₀ c₀ b) l := rfl
    rw [hfold, ih _ h.2]
    cases b with
    | false => simp [drawPixel]
    | true =>
      have hsame : ∀ r c, (r, c, true) ∈ l → (drawPixel acc r₀ c₀ true).1.pixel r c = acc.1.pixel r c := by
        intro r c hm
        have hne : ¬ (r₀ = r ∧ c₀ = c) := by
          rintro ⟨rfl, rfl⟩
          simpa [Apart] using h.1 _ hm
        simp [drawPixel, pixel_flip, hne]
      constructor
      · rintro (h2 | ⟨r, c, hm, hp⟩)
        · simp only [drawPixel, if_true, Bool.or_eq_true] at h2
          rcases h2 with h2 | h2
          · exact .inl h2
          · exact .inr ⟨r₀, c₀, List.mem_cons_self, h2⟩
        · exact .inr ⟨r, c, List.mem_cons_of_mem _ hm, by rw [← hsame r c hm]; exact hp⟩
      · rintro (h2 | ⟨r, c, hm, hp⟩)
        · exact .inl (by simp [drawPixel, h2])
        · rcases List.mem_cons.mp hm with heq | hm
          · simp only [Prod.mk.injEq] at heq
            obtain ⟨rfl, rfl, -⟩ := heq
            exact .inl (by simp [drawPixel, hp])
          · exact .inr ⟨r, c, hm, by rw [hsame r c hm]; exact hp⟩

/-! ### The cells of a sprite -/

/-- The sprite bits of one row of a sprite. -/
def rowCells (b x0 : Byte) (r : Fin 32) : List Cell :=
  (List.range 8).map fun bit => (r, Fin.ofNat 64 (x0.toNat + bit), b.getLsbD (7 - bit))

/-- The sprite bits of a sprite in drawing order. -/
def spriteCells (x0 : Byte) (y : Nat) : List Byte → List Cell
  | [] => []
  | b :: bs => rowCells b x0 (Fin.ofNat 32 y) ++ spriteCells x0 (y + 1) bs

theorem drawRows_eq_drawCells (rows : List Byte) (acc : Framebuffer × Bool) (x0 : Byte) (y : Nat) :
    drawRows acc x0 y rows = drawCells acc (spriteCells x0 y rows) := by
  induction rows generalizing acc y with
  | nil => rfl
  | cons b bs ih =>
    rw [drawRows, ih, spriteCells, drawCells, drawCells, List.foldl_append]
    rw [rowCells, List.foldl_map]
    rfl

theorem mem_rowCells {b x0 : Byte} {r r' : Fin 32} {c : Fin 64} {s : Bool} :
    (r', c, s) ∈ rowCells b x0 r ↔
      r' = r ∧ ∃ bit < 8, c.val = (x0.toNat + bit) % 64 ∧ s = b.getLsbD (7 - bit) := by
  simp only [rowCells, List.mem_map, List.mem_range, Prod.mk.injEq, Fin.ext_iff, Fin.ofNat]
  constructor
  · rintro ⟨bit, hb, h₁, h₂, h₃⟩; exact ⟨h₁.symm, bit, hb, h₂.symm, h₃.symm⟩
  · rintro ⟨h₁, bit, hb, h₂, h₃⟩; exact ⟨bit, hb, h₁.symm, h₂.symm, h₃.symm⟩

theorem mem_spriteCells {rows : List Byte} {x0 : Byte} {y : Nat} {r : Fin 32} {c : Fin 64} {s : Bool} :
    (r, c, s) ∈ spriteCells x0 y rows ↔
      ∃ i < rows.length, r.val = (y + i) % 32 ∧
        ∃ bit < 8, c.val = (x0.toNat + bit) % 64 ∧ s = (rows.getD i 0).getLsbD (7 - bit) := by
  induction rows generalizing y with
  | nil => simp [spriteCells]
  | cons b bs ih =>
    rw [spriteCells, List.mem_append, mem_rowCells, ih, Fin.ext_iff]
    constructor
    · rintro (⟨h₁, h₂⟩ | ⟨i, hi, h₁, h₂⟩)
      · exact ⟨0, by simp, h₁, by simpa using h₂⟩
      · exact ⟨i + 1, by simpa using hi, by rw [h₁]; congr 1; omega, by simpa using h₂⟩
    · rintro ⟨i, hi, h₁, h₂⟩
      cases i with
      | zero => exact .inl ⟨h₁, by simpa using h₂⟩
      | succ i => exact .inr ⟨i, by simpa using hi, by rw [h₁]; congr 1; omega, by simpa using h₂⟩

theorem rowCells_apart (b x0 : Byte) (r : Fin 32) : (rowCells b x0 r).Pairwise Apart := by
  rw [rowCells, List.pairwise_map]
  refine List.Pairwise.imp_of_mem ?_ List.pairwise_lt_range
  intro i j hi hj hlt
  simp only [List.mem_range] at hi hj
  refine .inr fun h => ?_
  simp only [Fin.ext_iff, Fin.ofNat] at h
  omega

theorem spriteCells_apart {rows : List Byte} {x0 : Byte} {y : Nat} (h : rows.length ≤ 32) :
    (spriteCells x0 y rows).Pairwise Apart := by
  induction rows generalizing y with
  | nil => exact List.Pairwise.nil
  | cons b bs ih =>
    simp only [List.length_cons] at h
    rw [spriteCells, List.pairwise_append]
    refine ⟨rowCells_apart b x0 _, ih (by omega), ?_⟩
    rintro ⟨r, c, s⟩ hp ⟨r', c', s'⟩ hq
    obtain ⟨hr, -⟩ := mem_rowCells.mp hp
    obtain ⟨i, hi, hr', -⟩ := mem_spriteCells.mp hq
    refine .inl fun e => ?_
    simp only [Fin.ext_iff, Fin.ofNat] at hr e
    omega

/-- A set bit of the sprite on a pixel is what `spritePixel` says (43_display.md R183). -/
theorem mem_spriteCells_iff_spritePixel {rows : List Byte} (x0 y0 : Byte) (h : rows.length ≤ 32) (r : Fin 32)
    (c : Fin 64) : (r, c, true) ∈ spriteCells x0 y0.toNat rows ↔ spritePixel rows x0 y0 r c = true := by
  rw [mem_spriteCells]
  simp only [spritePixel, Bool.and_eq_true, decide_eq_true_eq]
  constructor
  · rintro ⟨i, hi, hr, bit, hb, hc, hs⟩
    have h₁ : (r.val + 32 - y0.toNat % 32) % 32 = i := by omega
    have h₂ : (c.val + 64 - x0.toNat % 64) % 64 = bit := by omega
    rw [h₁, h₂]
    exact ⟨hb, hs.symm⟩
  · rintro ⟨hb, hs⟩
    refine ⟨(r.val + 32 - y0.toNat % 32) % 32, ?_, by omega, (c.val + 64 - x0.toNat % 64) % 64, hb, by omega, hs.symm⟩
    by_contra hlen
    rw [List.getD_eq_getElem?_getD, List.getElem?_eq_none (by omega)] at hs
    simp at hs

/-- Every pixel after a draw: flipped exactly where the sprite has a set bit. -/
theorem drawSprite_pixel (fb : Framebuffer) {rows : List Byte} (x0 y0 : Byte) (h : rows.length ≤ 32) (r : Fin 32)
    (c : Fin 64) : (drawSprite fb rows x0 y0).1.pixel r c = (fb.pixel r c ^^ spritePixel rows x0 y0 r c) := by
  rw [drawSprite, drawRows_eq_drawCells, drawCells_pixel _ _ (spriteCells_apart h)]
  congr 1
  rw [Bool.eq_iff_iff, decide_eq_true_eq, mem_spriteCells_iff_spritePixel x0 y0 h]

/-- The collision of a draw: some lit pixel lies under a set bit of the sprite. -/
theorem drawSprite_collision (fb : Framebuffer) {rows : List Byte} (x0 y0 : Byte) (h : rows.length ≤ 32) :
    (drawSprite fb rows x0 y0).2 = true ↔ ∃ r c, fb.pixel r c = true ∧ spritePixel rows x0 y0 r c = true := by
  rw [drawSprite, drawRows_eq_drawCells, drawCells_collision _ _ (spriteCells_apart h)]
  simp only [Bool.false_eq_true, false_or, mem_spriteCells_iff_spritePixel x0 y0 h, and_comm]

end Sys2Proof.Machine
end

