-- ==== Sys2Proof/Laws/Ops.lean ====
section
/-! SUPPORT. What each shared operation can do, said once. -/

namespace Sys2Proof.Machine

/-! ### Frames -/

/-- A frame over a smaller set of parts holds over a larger one. -/
theorem KeepsExcept.mono {ps qs : List Part} {s t : State} (h : KeepsExcept ps s t) (hsub : ∀ p ∈ ps, p ∈ qs) :
    KeepsExcept qs s t := fun p hp => h p fun hm => hp (hsub p hm)

theorem KeepsExcept.refl (ps : List Part) (s : State) : KeepsExcept ps s s := by
  intro p _; cases p <;> simp [SamePart]

/-- A frame as one condition per part, for a list of parts that is written out. -/
theorem keepsExcept_iff (ps : List Part) (s t : State) : KeepsExcept ps s t ↔
    (.regs ∉ ps → SamePart s t .regs) ∧
    (.idx ∉ ps → SamePart s t .idx) ∧
    (.pc ∉ ps → SamePart s t .pc) ∧
    (.stack ∉ ps → SamePart s t .stack) ∧
    (.display ∉ ps → SamePart s t .display) ∧
    (.dt ∉ ps → SamePart s t .dt) ∧
    (.st ∉ ps → SamePart s t .st) ∧
    (.keys ∉ ps → SamePart s t .keys) ∧
    (.mem ∉ ps → SamePart s t .mem) ∧
    (.fault ∉ ps → SamePart s t .fault) ∧
    (.sched ∉ ps → SamePart s t .sched) ∧
    (.phase ∉ ps → SamePart s t .phase) ∧
    (.draws ∉ ps → SamePart s t .draws) ∧
    (.ticks ∉ ps → SamePart s t .ticks) ∧
    (.events ∉ ps → SamePart s t .events) := by
  constructor
  · intro h; exact ⟨h _, h _, h _, h _, h _, h _, h _, h _, h _, h _, h _, h _, h _, h _, h _⟩
  · rintro ⟨h1, h2, h3, h4, h5, h6, h7, h8, h9, h10, h11, h12, h13, h14, h15⟩ p
    cases p <;> assumption

/-! ### The stack -/

/-- Everything a push can do. -/
theorem push_cases (s : State) (a : Word) :
    (∃ h : s.sp.val < 16, s.push a = some { s with stack := s.stack.set s.sp.val a, sp := ⟨s.sp.val + 1, by omega⟩ }) ∨
    (s.sp.val = 16 ∧ s.push a = none) := by
  by_cases h : s.sp.val < 16
  · exact .inl ⟨h, by simp [State.push, h]⟩
  · exact .inr ⟨by omega, by simp [State.push, h]⟩

/-- Everything a pop can do. -/
theorem pop_cases (s : State) :
    (∃ h : 0 < s.sp.val, s.pop = some (s.stack[s.sp.val - 1], { s with sp := ⟨s.sp.val - 1, by omega⟩ })) ∨
    (s.sp.val = 0 ∧ s.pop = none) := by
  by_cases h : 0 < s.sp.val
  · exact .inl ⟨h, by simp [State.pop, h]⟩
  · exact .inr ⟨by omega, by simp [State.pop, h]⟩

/-! ### Keys -/

theorem keyOf_of_lt {b : Byte} (h : b.toNat < 16) : keyOf b = some ⟨b.toNat, h⟩ := by simp [keyOf, h]

theorem keyOf_of_not_lt {b : Byte} (h : ¬ b.toNat < 16) : keyOf b = none := by simp [keyOf, h]

/-- No key is found exactly when none is pressed. -/
theorem firstPressed_eq_none_iff (s : State) : s.firstPressed = none ↔ ∀ k, s.keyPressed k = false := by
  simp [State.firstPressed]

/-- The key found is pressed, and none below it is. -/
theorem firstPressed_eq_some_iff (s : State) (k : Fin 16) :
    s.firstPressed = some k ↔ s.keyPressed k = true ∧ ∀ j < k, s.keyPressed j = false := by
  constructor
  · intro h
    rw [State.firstPressed, List.find?_eq_some_iff_getElem] at h
    obtain ⟨hk, i, hi, hik, hlow⟩ := h
    refine ⟨hk, fun j hj => ?_⟩
    simp only [List.getElem_finRange] at hik hlow
    subst hik
    have := hlow j.val hj
    simpa using this
  · rintro ⟨hk, hlow⟩
    rw [State.firstPressed, List.find?_eq_some_iff_getElem]
    refine ⟨hk, k.val, by simp, by simp, fun j hj => ?_⟩
    have := hlow ⟨j, by omega⟩ hj
    simpa using this

/-! ### The scheduler -/

/-- Everything `present` can do (43_display.md R186). -/
theorem present_cases (s : State) :
    (s.dirty = true ∧ s.present = { s with events := .present s.fb :: s.events, dirty := false }) ∨
    (s.dirty = false ∧ s.present = s) := by
  cases h : s.dirty
  · exact .inr ⟨rfl, by simp [State.present, h]⟩
  · exact .inl ⟨rfl, by simp only [State.present, h, if_true]; rfl⟩

theorem stopIfHalted_of_running {s : State} (h : s.run = .running) : s.stopIfHalted = s := by
  simp [State.stopIfHalted, h]

theorem stopIfHalted_of_halted {s : State} (h : s.run = .halted) : s.stopIfHalted = { s with sched := .stopped } := by
  simp [State.stopIfHalted, h]

/-- A timer goes down by one, never below 0 (47_scheduler.md R235). -/
theorem toNat_timerTick (b : Byte) : (timerTick b).toNat = b.toNat - 1 := by
  by_cases h : b = 0
  · simp [timerTick, h]
  · have : b.toNat ≠ 0 := fun e => h (BitVec.eq_of_toNat_eq e)
    simp only [timerTick, if_neg h, BitVec.toNat_sub]
    have := b.isLt
    simp
    omega

/-- Everything an engine step can do (47_scheduler.md R230, R231). -/
theorem engineStep_cases (s : State) :
    (s.run = .halted ∧ engineStep s = .next s) ∨
    (s.run = .running ∧ 4096 < s.pc.toNat + 2 ∧ engineStep s = .next (s.raise .pcRange s.pc)) ∨
    (s.run = .running ∧ s.pc.toNat + 2 ≤ 4096 ∧ engineStep s = exec (decode s.fetchWord) s) := by
  cases hr : s.run
  · by_cases h : s.pc.toNat + 2 ≤ 4096
    · exact .inr (.inr ⟨rfl, h, by simp [engineStep, hr, State.canFetch, h]⟩)
    · exact .inr (.inl ⟨rfl, by omega, by simp [engineStep, hr, State.canFetch, h]⟩)
  · exact .inl ⟨rfl, by simp [engineStep, hr]⟩

end Sys2Proof.Machine
end

