-- ==== Sys2Proof/Laws/Exec.lean ====
section
/-! SUPPORT. What each instruction that can fault or wait answers, case by case, and what the shared results of the others
hold. -/

namespace Sys2Proof.Machine

/-! ### Control flow -/

/-- Everything `00EE` can do (40_control_flow.md R120). -/
theorem exec_ret_cases (s : State) :
    (s.sp.val = 0 ∧ exec .ret s = .next (s.raise .stackUnderflow 0)) ∨
    (∃ h : 0 < s.sp.val,
      exec .ret s = .next { s with pc := s.stack[s.sp.val - 1], sp := ⟨s.sp.val - 1, by omega⟩ }) := by
  rcases pop_cases s with ⟨h, e⟩ | ⟨h, e⟩
  · exact .inr ⟨h, by simp only [exec, execRet, e]; rfl⟩
  · exact .inl ⟨h, by simp only [exec, execRet, e]⟩

/-- Everything `2nnn` can do (40_control_flow.md R122). -/
theorem exec_call_cases (nnn : BitVec 12) (s : State) :
    (s.sp.val = 16 ∧ exec (.call nnn) s = .next (s.raise .stackOverflow 0)) ∨
    (∃ h : s.sp.val < 16, exec (.call nnn) s = .next { s with
      pc := addrImm nnn, stack := s.stack.set s.sp.val (s.pc + 2), sp := ⟨s.sp.val + 1, by omega⟩ }) := by
  rcases push_cases s (s.pc + 2) with ⟨h, e⟩ | ⟨h, e⟩
  · exact .inr ⟨h, by simp only [exec, execCall, e]; rfl⟩
  · exact .inl ⟨h, by simp only [exec, execCall, e]⟩

/-! ### Memory -/

/-- Everything `Fx33` can do (42_index_memory.md R163). -/
theorem exec_ldB_cases (x : Reg) (s : State) :
    (4096 < s.idx.toNat + 3 ∧ exec (.ldB x) s = .next (s.raise .memRange s.idx)) ∨
    (s.idx.toNat + 3 ≤ 4096 ∧ exec (.ldB x) s =
      .next { s with mem := s.mem.writeRange s.idx.toNat (bcdDigits (s.reg x)), pc := s.pc + 2 }) := by
  rcases storeAtIdx_cases s (bcdDigits (s.reg x)) with ⟨h, e⟩ | ⟨h, e⟩
  · exact .inr ⟨h, congrArg Host.Outcome.next e⟩
  · exact .inl ⟨h, congrArg Host.Outcome.next e⟩

/-- Everything `Fx55` can do (42_index_memory.md R164). -/
theorem exec_stRegs_cases (x : Reg) (s : State) :
    (4096 < s.idx.toNat + x.val + 1 ∧ exec (.stRegs x) s = .next (s.raise .memRange s.idx)) ∨
    (s.idx.toNat + x.val + 1 ≤ 4096 ∧ exec (.stRegs x) s =
      .next { s with mem := s.mem.writeRange s.idx.toNat (s.regsUpTo x), pc := s.pc + 2 }) := by
  rcases storeAtIdx_cases s (s.regsUpTo x) with ⟨h, e⟩ | ⟨h, e⟩
  · exact .inr ⟨by simpa [Nat.add_assoc] using h, congrArg Host.Outcome.next e⟩
  · exact .inl ⟨by simpa [Nat.add_assoc] using h, congrArg Host.Outcome.next e⟩

/-- Everything `Fx65` can do (42_index_memory.md R165). -/
theorem exec_ldRegs_cases (x : Reg) (s : State) :
    (4096 < s.idx.toNat + x.val + 1 ∧ exec (.ldRegs x) s = .next (s.raise .memRange s.idx)) ∨
    (s.idx.toNat + x.val + 1 ≤ 4096 ∧ exec (.ldRegs x) s =
      .next (s.loadRegs (s.mem.readRange s.idx.toNat (x.val + 1))).advance) := by
  by_cases h : s.idx.toNat + x.val + 1 ≤ 4096
  · exact .inr ⟨h, by
      simp only [exec, execLdRegs, State.dataAddr, memRead_of_inBounds s (show s.idx.toNat + (x.val + 1) ≤ 4096 by omega)]⟩
  · exact .inl ⟨by omega, by
      simp only [exec, execLdRegs, State.dataAddr,
        memRead_of_outOfBounds s (show 4096 < s.idx.toNat + (x.val + 1) by omega)]⟩

/-! ### Display -/

/-- Everything `Dxyn` can do (43_display.md R182). -/
theorem exec_drw_cases (x y : Reg) (n : Fin 16) (s : State) :
    (4096 < s.idx.toNat + n.val ∧ exec (.drw x y n) s = .next (s.raise .memRange s.idx)) ∨
    (s.idx.toNat + n.val ≤ 4096 ∧ ∃ drawn,
      drawn = drawSprite s.fb (s.mem.readRange s.idx.toNat n.val) (s.reg x) (s.reg y) ∧
      exec (.drw x y n) s = .next ((s.setDisplay drawn.1).setFlag drawn.2).advance) := by
  by_cases h : s.idx.toNat + n.val ≤ 4096
  · exact .inr ⟨h, _, rfl, by simp only [exec, execDrw, State.dataAddr, memRead_of_inBounds s h]⟩
  · exact .inl ⟨by omega, by
      simp only [exec, execDrw, State.dataAddr, memRead_of_outOfBounds s (show 4096 < s.idx.toNat + n.val by omega)]⟩

/-! ### Keypad -/

/-- Everything `Ex9E` can do (44_keypad_timers.md R200, R202). -/
theorem exec_skp_cases (x : Reg) (s : State) :
    (15 < (s.reg x).toNat ∧ exec (.skp x) s = .next (s.raise .keyRange 0)) ∨
    (∃ h : (s.reg x).toNat < 16, exec (.skp x) s = .next (s.skipIf (s.keyPressed ⟨_, h⟩))) := by
  by_cases h : (s.reg x).toNat < 16
  · exact .inr ⟨h, by simp only [exec, execSkp, keyOf_of_lt h]⟩
  · exact .inl ⟨by omega, by simp only [exec, execSkp, keyOf_of_not_lt h]⟩

/-- Everything `ExA1` can do (44_keypad_timers.md R201, R202). -/
theorem exec_sknp_cases (x : Reg) (s : State) :
    (15 < (s.reg x).toNat ∧ exec (.sknp x) s = .next (s.raise .keyRange 0)) ∨
    (∃ h : (s.reg x).toNat < 16, exec (.sknp x) s = .next (s.skipIf (!s.keyPressed ⟨_, h⟩))) := by
  by_cases h : (s.reg x).toNat < 16
  · exact .inr ⟨h, by simp only [exec, execSknp, keyOf_of_lt h]⟩
  · exact .inl ⟨by omega, by simp only [exec, execSknp, keyOf_of_not_lt h]⟩

/-- Everything `Fx0A` can do (44_keypad_timers.md R204, R205). -/
theorem exec_ldVxK_cases (x : Reg) (s : State) :
    ((∀ k, s.keyPressed k = false) ∧ exec (.ldVxK x) s = .next s) ∨
    (∃ k, s.keyPressed k = true ∧ (∀ j < k, s.keyPressed j = false) ∧
      exec (.ldVxK x) s = .next (s.setReg x (BitVec.ofNat 8 k.val)).advance) := by
  cases h : s.firstPressed with
  | none => exact .inl ⟨(firstPressed_eq_none_iff s).1 h, by simp only [exec, execLdVxK, h]⟩
  | some k =>
    obtain ⟨h₁, h₂⟩ := (firstPressed_eq_some_iff s k).1 h
    exact .inr ⟨k, h₁, h₂, by simp only [exec, execLdVxK, h]⟩

end Sys2Proof.Machine
end

