-- ==== Sys2Proof/Laws/PerInstr.lean ====
section
/-! SUPPORT. Statements made instruction by instruction: the word of an instruction lies in the instruction's own row of
the opcode map (30_encoding.md R95, R96). -/

namespace Sys2Proof.Laws.RowOfEncoding

/-- The encoding of an instruction is covered by the mask and pattern of its row. -/
def Statement (i : Instr) : Prop := i.row.covers (encode i) = true

theorem covers_F000_of {op : Word} {w : BitVec 4} (h : wField op = w) :
    (OpcodeRow.mk 0xF000 (packXYN w 0 0 0)).covers op = true := by
  rw [covers_mask_F000, ← toNat_wField, h]

theorem covers_F00F_of {op : Word} {w n : BitVec 4} (h : wField op = w) (h' : nField op = n) :
    (OpcodeRow.mk 0xF00F (packXYN w 0 0 n)).covers op = true := by
  rw [covers_mask_F00F, ← toNat_wField, ← toNat_nField, h, h']
  exact ⟨rfl, rfl⟩

theorem covers_F0FF_of {op : Word} {w : BitVec 4} {kk : Byte} (h : wField op = w) (h' : kkField op = kk) :
    (OpcodeRow.mk 0xF0FF (packXKK w 0 kk)).covers op = true := by
  rw [covers_mask_F0FF, ← toNat_wField, ← toNat_kkField, h, h']
  exact ⟨rfl, rfl⟩

theorem cls : Statement .cls :=
  (rfl : OpcodeRow.covers ⟨0xFFFF, 0x00E0⟩ 0x00E0 = true)

theorem ret : Statement .ret :=
  (rfl : OpcodeRow.covers ⟨0xFFFF, 0x00EE⟩ 0x00EE = true)

theorem jp (nnn : BitVec 12) : Statement (.jp nnn) :=
  covers_F000_of (w := 0x1) (wField_packNNN _ _)

theorem call (nnn : BitVec 12) : Statement (.call nnn) :=
  covers_F000_of (w := 0x2) (wField_packNNN _ _)

theorem seImm (x : Reg) (kk : Byte) : Statement (.seImm x kk) :=
  covers_F000_of (w := 0x3) (wField_packXKK _ _ _)

theorem sneImm (x : Reg) (kk : Byte) : Statement (.sneImm x kk) :=
  covers_F000_of (w := 0x4) (wField_packXKK _ _ _)

theorem seReg (x y : Reg) : Statement (.seReg x y) :=
  covers_F00F_of (w := 0x5) (n := 0x0) (wField_packXYN _ _ _ _) (nField_packXYN _ _ _ _)

theorem ldImm (x : Reg) (kk : Byte) : Statement (.ldImm x kk) :=
  covers_F000_of (w := 0x6) (wField_packXKK _ _ _)

theorem addImm (x : Reg) (kk : Byte) : Statement (.addImm x kk) :=
  covers_F000_of (w := 0x7) (wField_packXKK _ _ _)

theorem ldReg (x y : Reg) : Statement (.ldReg x y) :=
  covers_F00F_of (w := 0x8) (n := 0x0) (wField_packXYN _ _ _ _) (nField_packXYN _ _ _ _)

theorem orReg (x y : Reg) : Statement (.orReg x y) :=
  covers_F00F_of (w := 0x8) (n := 0x1) (wField_packXYN _ _ _ _) (nField_packXYN _ _ _ _)

theorem andReg (x y : Reg) : Statement (.andReg x y) :=
  covers_F00F_of (w := 0x8) (n := 0x2) (wField_packXYN _ _ _ _) (nField_packXYN _ _ _ _)

theorem xorReg (x y : Reg) : Statement (.xorReg x y) :=
  covers_F00F_of (w := 0x8) (n := 0x3) (wField_packXYN _ _ _ _) (nField_packXYN _ _ _ _)

theorem addReg (x y : Reg) : Statement (.addReg x y) :=
  covers_F00F_of (w := 0x8) (n := 0x4) (wField_packXYN _ _ _ _) (nField_packXYN _ _ _ _)

theorem subReg (x y : Reg) : Statement (.subReg x y) :=
  covers_F00F_of (w := 0x8) (n := 0x5) (wField_packXYN _ _ _ _) (nField_packXYN _ _ _ _)

theorem shr (x y : Reg) : Statement (.shr x y) :=
  covers_F00F_of (w := 0x8) (n := 0x6) (wField_packXYN _ _ _ _) (nField_packXYN _ _ _ _)

theorem subn (x y : Reg) : Statement (.subn x y) :=
  covers_F00F_of (w := 0x8) (n := 0x7) (wField_packXYN _ _ _ _) (nField_packXYN _ _ _ _)

theorem shl (x y : Reg) : Statement (.shl x y) :=
  covers_F00F_of (w := 0x8) (n := 0xE) (wField_packXYN _ _ _ _) (nField_packXYN _ _ _ _)

theorem sneReg (x y : Reg) : Statement (.sneReg x y) :=
  covers_F00F_of (w := 0x9) (n := 0x0) (wField_packXYN _ _ _ _) (nField_packXYN _ _ _ _)

theorem ldI (nnn : BitVec 12) : Statement (.ldI nnn) :=
  covers_F000_of (w := 0xA) (wField_packNNN _ _)

theorem jpV0 (nnn : BitVec 12) : Statement (.jpV0 nnn) :=
  covers_F000_of (w := 0xB) (wField_packNNN _ _)

theorem rnd (x : Reg) (kk : Byte) : Statement (.rnd x kk) :=
  covers_F000_of (w := 0xC) (wField_packXKK _ _ _)

theorem drw (x y : Reg) (n : Fin 16) : Statement (.drw x y n) :=
  covers_F000_of (w := 0xD) (wField_packXYN _ _ _ _)

theorem skp (x : Reg) : Statement (.skp x) :=
  covers_F0FF_of (w := 0xE) (kk := 0x9E) (wField_packXKK _ _ _) (kkField_packXKK _ _ _)

theorem sknp (x : Reg) : Statement (.sknp x) :=
  covers_F0FF_of (w := 0xE) (kk := 0xA1) (wField_packXKK _ _ _) (kkField_packXKK _ _ _)

theorem ldVxDt (x : Reg) : Statement (.ldVxDt x) :=
  covers_F0FF_of (w := 0xF) (kk := 0x07) (wField_packXKK _ _ _) (kkField_packXKK _ _ _)

theorem ldVxK (x : Reg) : Statement (.ldVxK x) :=
  covers_F0FF_of (w := 0xF) (kk := 0x0A) (wField_packXKK _ _ _) (kkField_packXKK _ _ _)

theorem ldDtVx (x : Reg) : Statement (.ldDtVx x) :=
  covers_F0FF_of (w := 0xF) (kk := 0x15) (wField_packXKK _ _ _) (kkField_packXKK _ _ _)

theorem ldStVx (x : Reg) : Statement (.ldStVx x) :=
  covers_F0FF_of (w := 0xF) (kk := 0x18) (wField_packXKK _ _ _) (kkField_packXKK _ _ _)

theorem addI (x : Reg) : Statement (.addI x) :=
  covers_F0FF_of (w := 0xF) (kk := 0x1E) (wField_packXKK _ _ _) (kkField_packXKK _ _ _)

theorem ldF (x : Reg) : Statement (.ldF x) :=
  covers_F0FF_of (w := 0xF) (kk := 0x29) (wField_packXKK _ _ _) (kkField_packXKK _ _ _)

theorem ldB (x : Reg) : Statement (.ldB x) :=
  covers_F0FF_of (w := 0xF) (kk := 0x33) (wField_packXKK _ _ _) (kkField_packXKK _ _ _)

theorem stRegs (x : Reg) : Statement (.stRegs x) :=
  covers_F0FF_of (w := 0xF) (kk := 0x55) (wField_packXKK _ _ _) (kkField_packXKK _ _ _)

theorem ldRegs (x : Reg) : Statement (.ldRegs x) :=
  covers_F0FF_of (w := 0xF) (kk := 0x65) (wField_packXKK _ _ _) (kkField_packXKK _ _ _)

theorem dw (word : Word) : Statement (.dw word) := by simp [Statement, Instr.row, OpcodeRow.covers, encode]

end Sys2Proof.Laws.RowOfEncoding
end

