-- ==== Sys2Proof/Laws/Step.lean ====
section
/-! SUPPORT. What one machine step is, position by position in the tick (47_scheduler.md R231, R234). -/

namespace Sys2Proof.Machine

theorem step_stopped {s : State} (h : s.sched = .stopped) : step s = .next s := by simp [step, schedule, h]

theorem step_tickStart {s : State} (hs : s.sched = .active) (hp : s.phase = .tickStart) :
    step s = .next (s.beginTick s.stopRequested Config.cyclesPerTickLessOne) := by
  simp [step, schedule, hs, hp]

theorem step_tickEnd {s : State} (hs : s.sched = .active) (hp : s.phase = .tickEnd) :
    step s = .next (s.endTick (Config.keysIn s.ticks)) := by
  simp [step, schedule, hs, hp]

/-- In the batch a machine step is an engine step, and the batch moves on. -/
theorem step_engine_of_next {s t : State} {more : Nat} (hs : s.sched = .active) (hp : s.phase = .engine more)
    (h : engineStep s = .next t) : step s = .next (t.endCycle more) := by
  simp [step, schedule, hs, hp, h]

theorem endCycle_eq (s : State) (more : Nat) :
    s.endCycle more = { s with phase := if more = 0 then .tickEnd else .engine (more - 1) } := by
  cases more <;> rfl

/-! ### Runs -/

theorem run_zero (s : State) : Sys2Proof.core.run 0 s = .next s := rfl

theorem run_succ_of_next {s t : State} (k : Nat) (h : step s = .next t) :
    Sys2Proof.core.run (k + 1) s = Sys2Proof.core.run k t := by
  have h' : Sys2Proof.core.step s = .next t := h
  simp only [Host.Core.run, h']

theorem run_add_of_next {s t : State} {a : Nat} (b : Nat) (h : Sys2Proof.core.run a s = .next t) :
    Sys2Proof.core.run (a + b) s = Sys2Proof.core.run b t := by
  induction a generalizing s with
  | zero => rw [run_zero] at h; cases h; rw [Nat.zero_add]
  | succ a ih =>
    rw [Nat.add_right_comm]
    simp only [Host.Core.run] at h
    cases e : Sys2Proof.core.step s with
    | next u => rw [e] at h; rw [run_succ_of_next _ e]; exact ih h
    | fault r => rw [e] at h; cases h
    | refused r => rw [e] at h; cases h

/-! ### The tick -/

/-- The end of a tick, field by field (47_scheduler.md R234). -/
theorem endTick_eq (s : State) (sample : Keys) :
    s.endTick sample = { s with
      keys := sample
      events := if s.dirty = true then .present s.fb :: s.events else s.events
      dirty := false
      sched := if s.run = .halted then .stopped else s.sched
      phase := .tickStart
      ticks := s.ticks + 1 } := by
  cases hd : s.dirty <;> cases hr : s.run <;>
    simp [State.endTick, State.present, State.stopIfHalted, State.latchKeys, State.emit, hd, hr]

/-- The start of a tick, field by field (47_scheduler.md R234, R238). -/
theorem beginTick_stop (s : State) (lessOne : Nat) : s.beginTick true lessOne = { s with sched := .stopped } := rfl

theorem beginTick_go (s : State) (lessOne : Nat) :
    s.beginTick false lessOne =
      { s with dt := timerTick s.dt, st := timerTick s.st, phase := .engine lessOne } := rfl

end Sys2Proof.Machine
end

