-- ==== Sys2Proof/Tests/Slice0.lean ====
section
/-! SUPPORT. Tests of the model against the spec's own examples and vectors (95_test_vectors.md), and a witness for the
hypotheses of every statement that has some. -/

namespace Sys2Proof.Tests

open Sys2Proof.Machine

/-! ### Helpers -/

/-- The reset state with some registers set. -/
def withRegs (l : List (Reg × Byte)) : State := l.foldl (fun s p => s.setReg p.1 p.2) State.reset

/-- Whether the step that runs `op` from `s` answers a state with `P`. -/
def after (s : State) (op : Nat) (P : State → Bool) : Bool :=
  match step (s.withFetchWord 16 op) with
  | .next t => P t
  | .fault _ => false
  | .refused _ => false

/-- The reset state with bytes stored at an address. -/
def withBytes (s : State) (a : Nat) (bs : List Byte) : State := { s with mem := s.mem.writeRange a bs }

/-- The reset state with some keys pressed. -/
def withKeys (s : State) (l : List (Fin 16)) : State := { s with keys := Vector.ofFn fun k => l.contains k }

/-- An engine step is next, the last of its batch. -/
def inBatch (s : State) : State := { s with phase := .engine 0 }

/-- The reset state with its stack full, every entry `0x202` (vector P6). -/
def fullStack : State := { State.reset with stack := Vector.replicate 16 0x202, sp := 16 }

/-! ### Well-formedness: the one check refuses a default arm that holds a word of a row -/

theorem test_wf_refuses_dw_of_cls : (Instr.dw 0x00E0).wellFormed = false := by decide
theorem test_wf_refuses_dw_of_jp : (Instr.dw 0x1228).wellFormed = false := by decide
theorem test_wf_refuses_dw_of_shl : (Instr.dw 0x8F0E).wellFormed = false := by decide
theorem test_wf_refuses_dw_of_ldRegs : (Instr.dw 0xFF65).wellFormed = false := by decide
theorem test_wf_accepts_dw_of_unknown_words : (Instr.dw 0x0000).wellFormed = true ∧ (Instr.dw 0x000E).wellFormed = true ∧
    (Instr.dw 0x5121).wellFormed = true ∧ (Instr.dw 0x8128).wellFormed = true ∧ (Instr.dw 0xE29F).wellFormed = true ∧
    (Instr.dw 0xFFFF).wellFormed = true := by decide

/-! ### Decoding: one word of every row written out bit by bit as `w x y n` (30_encoding.md R93, R96) -/

theorem test_decode_cls : decode 0b0000_0000_1110_0000 = .cls := by decide
theorem test_decode_ret : decode 0b0000_0000_1110_1110 = .ret := by decide
theorem test_decode_jp : decode 0b0001_0010_0010_1000 = .jp 0x228 := by decide
theorem test_decode_call : decode 0b0010_1101_0000_0001 = .call 0xD01 := by decide
theorem test_decode_seImm : decode 0b0011_1010_0000_0101 = .seImm 10 0x05 := by decide
theorem test_decode_sneImm : decode 0b0100_1010_1000_0001 = .sneImm 10 0x81 := by decide
theorem test_decode_seReg : decode 0b0101_0001_0010_0000 = .seReg 1 2 := by decide
theorem test_decode_ldImm : decode 0b0110_0000_0000_0101 = .ldImm 0 0x05 := by decide
theorem test_decode_addImm : decode 0b0111_1010_0000_1111 = .addImm 10 0x0F := by decide
theorem test_decode_ldReg : decode 0b1000_0001_0010_0000 = .ldReg 1 2 := by decide
theorem test_decode_orReg : decode 0b1000_0001_0010_0001 = .orReg 1 2 := by decide
theorem test_decode_andReg : decode 0b1000_0001_0010_0010 = .andReg 1 2 := by decide
theorem test_decode_xorReg : decode 0b1000_1111_0111_0011 = .xorReg 15 7 := by decide
theorem test_decode_addReg : decode 0b1000_0001_0010_0100 = .addReg 1 2 := by decide
theorem test_decode_subReg : decode 0b1000_0001_0010_0101 = .subReg 1 2 := by decide
theorem test_decode_shr : decode 0b1000_1111_0000_0110 = .shr 15 0 := by decide
theorem test_decode_subn : decode 0b1000_0001_0010_0111 = .subn 1 2 := by decide
theorem test_decode_shl : decode 0b1000_0001_0011_1110 = .shl 1 3 := by decide
theorem test_decode_sneReg : decode 0b1001_0001_0010_0000 = .sneReg 1 2 := by decide
theorem test_decode_ldI : decode 0b1010_0010_0000_1010 = .ldI 0x20A := by decide
theorem test_decode_jpV0 : decode 0b1011_0010_1111_0001 = .jpV0 0x2F1 := by decide
theorem test_decode_rnd : decode 0b1100_0011_0000_1111 = .rnd 3 0x0F := by decide
theorem test_decode_drw : decode 0b1101_0001_0010_0101 = .drw 1 2 5 := by decide
theorem test_decode_skp : decode 0b1110_0010_1001_1110 = .skp 2 := by decide
theorem test_decode_sknp : decode 0b1110_0010_1010_0001 = .sknp 2 := by decide
theorem test_decode_ldVxDt : decode 0b1111_0101_0000_0111 = .ldVxDt 5 := by decide
theorem test_decode_ldVxK : decode 0b1111_0011_0000_1010 = .ldVxK 3 := by decide
theorem test_decode_ldDtVx : decode 0b1111_0101_0001_0101 = .ldDtVx 5 := by decide
theorem test_decode_ldStVx : decode 0b1111_0110_0001_1000 = .ldStVx 6 := by decide
theorem test_decode_addI : decode 0b1111_0010_0001_1110 = .addI 2 := by decide
theorem test_decode_ldF : decode 0b1111_0011_0010_1001 = .ldF 3 := by decide
theorem test_decode_ldB : decode 0b1111_0100_0011_0011 = .ldB 4 := by decide
theorem test_decode_stRegs : decode 0b1111_0010_0101_0101 = .stRegs 2 := by decide
theorem test_decode_ldRegs : decode 0b1111_0001_0110_0101 = .ldRegs 1 := by decide
theorem test_decode_dw : decode 0b0101_0001_0010_0001 = .dw 0x5121 := by decide

/-- The unknown neighbours the spec names (vectors A20, B35, E7, F1, F2, F3). -/
theorem test_decode_unknown_neighbours : decode 0x0000 = .dw 0x0000 ∧ decode 0x000E = .dw 0x000E ∧ decode 0x00E1 = .dw 0x00E1 ∧ decode 0x00EF = .dw 0x00EF ∧
    decode 0x0123 = .dw 0x0123 ∧ decode 0xF000 = .dw 0xF000 ∧ decode 0xF166 = .dw 0xF166 ∧ decode 0xE000 = .dw 0xE000 ∧
    decode 0x8008 = .dw 0x8008 ∧ decode 0x9001 = .dw 0x9001 ∧ decode 0x8128 = .dw 0x8128 ∧ decode 0xE29F = .dw 0xE29F :=
  ⟨by decide, by decide, by decide, by decide, by decide, by decide, by decide, by decide, by decide, by decide, by decide, by decide⟩

/-- Fewer than two bytes hold no instruction (30_encoding.md R90); the high byte is the first (20_memory.md R66). -/
theorem test_decode_bytes : decodeBytes [] = .error .truncated ∧ decodeBytes [0x60] = .error .truncated ∧
    decodeBytes [0x60, 0x05, 0xA2] = .ok (.ldImm 0 0x05, [0xA2]) := by decide

theorem test_decode_table_word : decodeTableWord 16 0xD125 = some (.drw 1 2 5) ∧
    decodeTableWord 8 0xE0 = some .cls := by decide

/-! ### One step per vector -/

/-- Vector D10. -/
theorem test_cls_clears : after ({ withRegs [(15, 1)] with fb := Vector.replicate 32 0x20, dirty := false }) 0x00E0
    (fun t => t.fb == Vector.replicate 32 0 && t.dirty && t.reg 15 == 1 && t.pc == 0x202) = true := by decide

/-- Vector A8. -/
theorem test_ret_pops : after ({ State.reset with pc := 0x300, sp := 1, stack := State.reset.stack.set 0 0x204 }) 0x00EE
    (fun t => t.pc == 0x204 && t.sp == 0) = true := by decide

/-- Vector A9, S4. -/
theorem test_ret_underflow : after State.reset 0x00EE
    (fun t => t.run == .halted && t.cause == .stackUnderflow && t.faultPc == 0x200 && t.pc == 0x200 && t.sp == 0) = true := by decide

/-- Vector A1. -/
theorem test_jp : after State.reset 0x1228
    (fun t => t.pc == 0x228) = true := by decide

/-- Vector A5. -/
theorem test_jp_odd_target : after State.reset 0x1301
    (fun t => t.pc == 0x301) = true := by decide

/-- Vector A6. -/
theorem test_call_pushes : after ({ State.reset with pc := 0x202 }) 0x2300
    (fun t => t.stack[0] == 0x204 && t.sp == 1 && t.pc == 0x300) = true := by decide

/-- Vector A7. -/
theorem test_call_overflow : after fullStack 0x2300
    (fun t => t.run == .halted && t.cause == .stackOverflow && t.faultPc == 0x200 && t.sp == 16 && t.pc == 0x200 && t.stack == fullStack.stack) = true := by decide

/-- Vector A11. -/
theorem test_jpV0_keeps_the_sum : after (withRegs [(0, 0xFF)]) 0xBFFF
    (fun t => t.pc == 0x10FE) = true := by decide

/-- Vector A12. -/
theorem test_jpV0_uses_V0 : after (withRegs [(0, 0x10), (2, 0x99)]) 0xB2F1
    (fun t => t.pc == 0x301) = true := by decide

/-- Vector A13. -/
theorem test_seImm_skips : after (withRegs [(10, 0x05)]) 0x3A05
    (fun t => t.pc == 0x204) = true := by decide

/-- Vector A23. -/
theorem test_seImm_at_the_end_of_memory : after ({ State.reset with pc := 0xFFE }) 0x3000
    (fun t => t.pc == 0x1002 && t.run == .running) = true := by decide

/-- Vector A15. -/
theorem test_sneImm_equal : after (withRegs [(10, 0x05)]) 0x4A05
    (fun t => t.pc == 0x202) = true := by decide

/-- Vector A16. -/
theorem test_sneImm_skips : after (withRegs [(10, 0x06)]) 0x4A05
    (fun t => t.pc == 0x204) = true := by decide

/-- Vector A17. -/
theorem test_seReg_skips : after (withRegs [(1, 0x33), (2, 0x33)]) 0x5120
    (fun t => t.pc == 0x204) = true := by decide

/-- Vector A18. -/
theorem test_seReg_differs : after (withRegs [(1, 0x33), (2, 0x34)]) 0x5120
    (fun t => t.pc == 0x202) = true := by decide

/-- Vector A21. -/
theorem test_sneReg_skips : after (withRegs [(1, 0x33), (2, 0x34)]) 0x9120
    (fun t => t.pc == 0x204) = true := by decide

/-- Vector A22. -/
theorem test_sneReg_equal : after (withRegs [(1, 0x33), (2, 0x33)]) 0x9120
    (fun t => t.pc == 0x202) = true := by decide

/-- Vector S7. -/
theorem test_ldImm : after State.reset 0x6005
    (fun t => t.reg 0 == 0x05 && t.pc == 0x202) = true := by decide

/-- Vector B2. -/
theorem test_ldImm_into_VF : after (withRegs [(15, 1)]) 0x6F07
    (fun t => t.reg 15 == 0x07) = true := by decide

/-- Vector B3. -/
theorem test_addImm_wraps_without_flag : after (withRegs [(10, 0xF5)]) 0x7A0F
    (fun t => t.reg 10 == 0x04 && t.reg 15 == 0) = true := by decide

/-- Vector B4. -/
theorem test_addImm_leaves_VF : after (withRegs [(3, 0xFF), (15, 0x55)]) 0x7301
    (fun t => t.reg 3 == 0 && t.reg 15 == 0x55) = true := by decide

/-- Vector B5. -/
theorem test_ldReg : after (withRegs [(2, 0x7E)]) 0x8120
    (fun t => t.reg 1 == 0x7E && t.reg 2 == 0x7E) = true := by decide

/-- Vector B6. -/
theorem test_orReg : after (withRegs [(1, 0xF0), (2, 0x0F), (15, 0x55)]) 0x8121
    (fun t => t.reg 1 == 0xFF && t.reg 15 == 0x55) = true := by decide

/-- Vector B7. -/
theorem test_andReg : after (withRegs [(1, 0xF3), (2, 0x3F)]) 0x8122
    (fun t => t.reg 1 == 0x33) = true := by decide

/-- Vector B8. -/
theorem test_xorReg : after (withRegs [(1, 0xFF), (2, 0x0F)]) 0x8123
    (fun t => t.reg 1 == 0xF0) = true := by decide

/-- Vector B9. -/
theorem test_xorReg_VF : after (withRegs [(15, 0x55)]) 0x8FF3
    (fun t => t.reg 15 == 0) = true := by decide

/-- Vector S1. -/
theorem test_addReg_carry : after (withRegs [(1, 0xC8), (2, 0x64)]) 0x8124
    (fun t => t.reg 1 == 0x2C && t.reg 15 == 1) = true := by decide

/-- Vector B16. -/
theorem test_addReg_VF_is_operand : after (withRegs [(1, 0xFF), (15, 1)]) 0x81F4
    (fun t => t.reg 1 == 0 && t.reg 15 == 1) = true := by decide

/-- Vector S2. -/
theorem test_subReg_borrow : after (withRegs [(1, 0x10), (2, 0x20)]) 0x8125
    (fun t => t.reg 1 == 0xF0 && t.reg 15 == 0) = true := by decide

/-- Vector B21. -/
theorem test_subReg_VF_is_destination : after (withRegs [(15, 3), (2, 4)]) 0x8F25
    (fun t => t.reg 15 == 0xFF) = true := by decide

/-- Vector B26. -/
theorem test_shr_uses_Vx_only : after (withRegs [(1, 0xFF)]) 0x8126
    (fun t => t.reg 1 == 0x7F && t.reg 15 == 1 && t.reg 2 == 0) = true := by decide

/-- Vector S3. -/
theorem test_shr_VF : after (withRegs [(15, 3)]) 0x8F06
    (fun t => t.reg 15 == 1) = true := by decide

/-- Vector S2. -/
theorem test_subn : after (withRegs [(1, 0x10), (2, 0x20)]) 0x8127
    (fun t => t.reg 1 == 0x10 && t.reg 15 == 1) = true := by decide

/-- Vector B30. -/
theorem test_subn_VF_is_operand : after (withRegs [(1, 2), (15, 1)]) 0x81F7
    (fun t => t.reg 1 == 0xFF && t.reg 15 == 0) = true := by decide

/-- Vector S11. -/
theorem test_shl : after (withRegs [(1, 0xC1)]) 0x810E
    (fun t => t.reg 1 == 0x82 && t.reg 15 == 1) = true := by decide

/-- Vector B33. -/
theorem test_shl_VF : after (withRegs [(15, 0x81)]) 0x8F0E
    (fun t => t.reg 15 == 2) = true := by decide

/-- Vector B37. -/
theorem test_rnd_consumes_a_draw : after (withRegs [(3, 0x99)]) 0xC300
    (fun t => t.draws == 1 && t.pc == 0x202 && t.reg 15 == 0) = true := by decide

/-- Vector C1. -/
theorem test_ldI : after State.reset 0xAFFF
    (fun t => t.idx == 0xFFF && t.pc == 0x202) = true := by decide

/-- Vector C3. -/
theorem test_addI_wraps : after ({ withRegs [(2, 1)] with idx := 0xFFF }) 0xF21E
    (fun t => t.idx == 0 && t.reg 15 == 0 && t.run == .running) = true := by decide

/-- Vector C4. -/
theorem test_addI_wraps_far : after ({ withRegs [(2, 0xFF)] with idx := 0xF80 }) 0xF21E
    (fun t => t.idx == 0x07F) = true := by decide

/-- Vector C9. -/
theorem test_ldB : after ({ withRegs [(4, 0x9C)] with idx := 0x300 }) 0xF433
    (fun t => t.readByte 0x300 == 1 && t.readByte 0x301 == 5 && t.readByte 0x302 == 6 && t.idx == 0x300) = true := by decide

/-- Vector C13. -/
theorem test_ldB_outside : after ({ withRegs [(4, 0x64)] with idx := 0xFFE }) 0xF433
    (fun t => t.run == .halted && t.cause == .memRange && t.faultAddr == 0xFFE && t.readByte 0xFFE == 0 && t.pc == 0x200) = true := by decide

/-- Vector C14. -/
theorem test_stRegs : after ({ withRegs [(0, 0x11), (1, 0x22), (2, 0x33), (3, 0x44)] with idx := 0x400 }) 0xF255
    (fun t => t.readByte 0x400 == 0x11 && t.readByte 0x402 == 0x33 && t.readByte 0x403 == 0 && t.idx == 0x400) = true := by decide

/-- Vector C18. -/
theorem test_stRegs_outside : after ({ withRegs [(0, 0x11)] with idx := 0xFF1 }) 0xFF55
    (fun t => t.cause == .memRange && t.faultAddr == 0xFF1 && t.readByte 0xFF1 == 0) = true := by decide

/-- Vector C19. -/
theorem test_ldRegs : after ({ withBytes (withRegs [(2, 0x77)]) 0x400 [0xAA, 0xBB, 0xCC] with idx := 0x400 }) 0xF165
    (fun t => t.reg 0 == 0xAA && t.reg 1 == 0xBB && t.reg 2 == 0x77 && t.idx == 0x400) = true := by decide

/-- Vector C21. -/
theorem test_ldRegs_outside : after ({ withRegs [(0, 0x12)] with idx := 0xFFF }) 0xF165
    (fun t => t.cause == .memRange && t.faultAddr == 0xFFF && t.reg 0 == 0x12) = true := by decide

/-- Vector D3. -/
theorem test_drw_wraps : after ({ withBytes (withRegs [(1, 62), (2, 31)]) 0x300 [0xF0, 0x90] with idx := 0x300 }) 0xD122
    (fun t => t.fb[31] == 0xC000000000000003 && t.fb[0] == 0x4000000000000002 && t.fb[1] == 0 && t.reg 15 == 0 && t.dirty) = true := by decide

/-- Vector D5. -/
theorem test_drw_collides : after ({ withBytes (withRegs [(1, 2)]) 0x300 [0xF0] with idx := 0x300, fb := State.reset.fb.set 0 0xF }) 0xD121
    (fun t => t.fb[0] == 0x33 && t.reg 15 == 1) = true := by decide

/-- Vector E1. -/
theorem test_skp_pressed : after (withKeys (withRegs [(2, 5)]) [5]) 0xE29E
    (fun t => t.pc == 0x204) = true := by decide

/-- Vector E5. -/
theorem test_skp_no_such_key : after (withRegs [(2, 0x10)]) 0xE29E
    (fun t => t.run == .halted && t.cause == .keyRange && t.faultPc == 0x200 && t.pc == 0x200) = true := by decide

/-- Vector E3. -/
theorem test_sknp_pressed : after (withKeys (withRegs [(2, 5)]) [5]) 0xE2A1
    (fun t => t.pc == 0x202) = true := by decide

/-- Vector E6. -/
theorem test_sknp_no_such_key : after (withRegs [(2, 0xFF)]) 0xE2A1
    (fun t => t.run == .halted && t.cause == .keyRange) = true := by decide

/-- Vector E12. -/
theorem test_ldVxDt : after ({ State.reset with dt := 0x3C }) 0xF507
    (fun t => t.reg 5 == 0x3C && t.dt == 0x3C) = true := by decide

/-- Vector E8. -/
theorem test_ldVxK_waits : after (withRegs [(3, 0x99)]) 0xF30A
    (fun t => t.reg 3 == 0x99 && t.pc == 0x200) = true := by decide

/-- Vector E10. -/
theorem test_ldVxK_takes_the_lowest : after (withKeys State.reset [9, 7, 12]) 0xF30A
    (fun t => t.reg 3 == 7 && t.pc == 0x202) = true := by decide

/-- Vector E13. -/
theorem test_ldDtVx : after (withRegs [(5, 0xFF)]) 0xF515
    (fun t => t.dt == 0xFF && t.st == 0) = true := by decide

/-- Vector E14. -/
theorem test_ldStVx : after (withRegs [(6, 0x1E)]) 0xF618
    (fun t => t.st == 0x1E && t.dt == 0) = true := by decide

/-- Vector S10. -/
theorem test_dw_reports : after State.reset 0xFFFF
    (fun t => t.pc == 0x202 && t.events == [.unknownOpcode 0x200 0xFFFF] && t.run == .running && t.dirty == false) = true := by decide

/-- Vector C5, for every font base. -/
theorem test_ldF : (withRegs [(3, 0x0A)]).glyphAddr 3 = BitVec.ofNat 16 (Config.fontBase.val + 5 * 0x0A) := rfl

/-- Vector C7: the whole byte, not its low nibble. -/
theorem test_ldF_whole_byte : (withRegs [(3, 0x1A)]).glyphAddr 3 = BitVec.ofNat 16 (Config.fontBase.val + 5 * 0x1A) := rfl

/-- Vector B36. -/
theorem test_rnd_masks_the_draw : (State.reset.storeMasked 3 0xA7 0x0F).reg 3 = 0x07 := by decide

/-- The codes of 60_exceptions.md R261, as vectors A3, C13, A7, A9 and E5 name them. -/
theorem test_cause_codes : Cause.pcRange.code = 1 ∧ Cause.memRange.code = 2 ∧ Cause.stackOverflow.code = 3 ∧
    Cause.stackUnderflow.code = 4 ∧ Cause.keyRange.code = 5 := by decide

/-! ### Scheduler vectors -/

/-- Vector F8: a fetch beyond memory. -/
theorem test_fetch_beyond_memory : (match step (inBatch { State.reset with pc := 0xFFF }) with
    | .next t => t.run == .halted && t.cause == .pcRange && t.faultPc == 0xFFF && t.faultAddr == 0xFFF
    | .fault _ => false
    | .refused _ => false) = true := by decide

/-- Vector F6: both timers go down at the start of a tick. -/
theorem test_timers_at_tick_start : (match step { State.reset with dt := 0xFF, st := 2 } with
    | .next t => t.dt == 0xFE && t.st == 1
    | .fault _ => false
    | .refused _ => false) = true := by decide

/-- Vectors D13 and F12: the end of a tick presents, cleans the flag, and stops a halted machine. -/
theorem test_tick_end : (match step { State.reset with phase := .tickEnd, dirty := true, run := .halted } with
    | .next t => t.events == [.present State.reset.fb] && !t.dirty && t.sched == .stopped
    | .fault _ => false
    | .refused _ => false) = true := by decide

/-- Program P1 loaded: its first word is at 512. -/
theorem test_boot : (boot [0x60, 0x05, 0xA2, 0x0A]).map State.fetchWord = some 0x6005 := by decide

/-! ### Memory -/

theorem test_reset_memory_is_canonical : State.reset.mem.wf = true := by decide

/-- Writing what an unlisted byte reads as removes the entry. -/
theorem test_write_back_removes_entry : Memory.write (Memory.write [] 0x300 7) 0x300 0 = [] := by decide

/-! ### Witnesses: states and operands that meet the hypotheses of each statement -/

theorem witness_DecodeInvertsEncode : (Instr.dw 0xFFFF).wellFormed = true ∧ (Instr.drw 15 15 15).wellFormed = true := by
  decide

theorem witness_DispatchFollowsMaskAndMatch : (⟨0xFFFF, 0x00E0⟩ : OpcodeRow) ∈ opcodeRows ∧
    (⟨0xF0FF, 0xF065⟩ : OpcodeRow) ∈ opcodeRows ∧ (∀ r ∈ opcodeRows, r.covers 0xFFFF = false) := by decide

/-- The last address a fetch may have, in the last and in an earlier step of a batch. -/
theorem witness_StepExecutesFetchedInstruction : ∀ more ∈ [0, 5],
    let s : State := { State.reset with pc := 0xFFE, phase := .engine more }
    s.sched = .active ∧ s.run = .running ∧ s.phase = .engine more ∧ s.pc.toNat + 2 ≤ 4096 := by decide

theorem witness_FetchBeyondMemoryHalts : ∀ more ∈ [0, 5],
    let s : State := { State.reset with pc := 0xFFF, phase := .engine more }
    s.sched = .active ∧ s.run = .running ∧ s.phase = .engine more ∧ 4096 < s.pc.toNat + 2 := by decide

theorem witness_HaltedEngineStepIsNoOp : ∀ more ∈ [0, 5],
    let s : State := { State.reset with run := .halted, phase := .engine more }
    s.sched = .active ∧ s.run = .halted ∧ s.phase = .engine more := by decide

theorem witness_TimersDecrementOnlyAtTickStart : (∀ b ∈ ([0, 1, 255] : List Byte),
      let s : State := { State.reset with dt := b, st := b }
      s.sched = .active ∧ s.phase = .tickStart ∧ s.stopRequested = false) ∧
    ∀ p ∈ [Phase.tickEnd, .engine 0],
      let s : State := { withBytes State.reset 0x200 [0xF5, 0x15] with phase := p }
      (∃ t, step s = .next t) ∧ s.phase ≠ .tickStart ∧ decode s.fetchWord = .ldDtVx 5 := by
  refine ⟨by decide, ?_⟩
  intro p hp
  simp only [List.mem_cons, List.not_mem_nil, or_false] at hp
  rcases hp with rfl | rfl <;> exact ⟨⟨_, rfl⟩, by decide, by decide⟩

theorem witness_TickEndLatchesPresentsAndStops : ∀ d ∈ [true, false], ∀ r ∈ [RunState.running, .halted],
    let s : State := { State.reset with phase := .tickEnd, dirty := d, run := r }
    s.sched = .active ∧ s.phase = .tickEnd := by decide

theorem witness_PresentOnlyWhenDirty : ({ State.reset with dirty := true } : State).dirty = true ∧
    State.reset.dirty = false := by decide

theorem witness_StopRequestStopsForGood :
    (let s : State := { State.reset with ticks := 1 }
     s.sched = .active ∧ s.phase = .tickStart ∧ s.ticks ≠ 0) ∧
    ({ State.reset with sched := .stopped } : State).sched = .stopped := by decide

theorem witness_StepsOfATickAreTheTick :
    State.reset.sched = .active ∧ State.reset.phase = .tickStart ∧ State.reset.stopRequested = false := by decide

theorem witness_ReturnPopsTheTopEntry : ∀ k ∈ ([0, 15] : List (Fin 16)),
    ({ fullStack with sp := ⟨k.val + 1, by omega⟩ } : State).sp.val = k.val + 1 := by decide

theorem witness_CallPushesTheNextAddress : ∀ k ∈ ([0, 15] : List (Fin 16)),
    ({ fullStack with sp := ⟨k.val, by omega⟩ } : State).sp.val = k.val := by decide

theorem witness_CallThenReturnComesBack : ({ fullStack with sp := 15 } : State).sp.val < 16 := by decide

theorem witness_KeySkipsReadTheLatch : ∀ k ∈ ([0, 15] : List (Fin 16)),
    ((withRegs [(2, BitVec.ofNat 8 k.val)]).reg 2).toNat = k.val := by decide

theorem witness_DecimalDigitsStoredAtIndex :
    let s : State := { State.reset with idx := 0xFFD }
    s.dataAddr + 3 ≤ 4096 ∧ s.mem.wf = true := by decide

theorem witness_RegistersStoredAtIndex : ∀ x ∈ ([0, 15] : List Reg),
    let s : State := { State.reset with idx := 0xFF0 }
    s.dataAddr + x.val + 1 ≤ 4096 ∧ s.mem.wf = true := by decide

theorem witness_RegistersLoadedFromIndex :
    (let s : State := { State.reset with idx := 0xFF0 }; s.dataAddr + (15 : Reg).val + 1 ≤ 4096) ∧
    (let s : State := { State.reset with idx := 0xFFF }; s.dataAddr + (0 : Reg).val + 1 ≤ 4096) := by decide

theorem witness_StoreThenLoadRestoresRegisters :
    let s : State := { withBytes State.reset 0x400 [1] with idx := 0xFF0 }
    s.dataAddr + (15 : Reg).val + 1 ≤ 4096 ∧ s.mem.wf = true := by decide

theorem witness_StoredCodeIsFetchedNext :
    let s : State := { State.reset with pc := 0xFFC, idx := 0xFFE }
    s.mem.wf = true ∧ 1 ≤ (1 : Reg).val ∧ s.idx.toNat = s.pc.toNat + 2 ∧ s.idx.toNat + (1 : Reg).val + 1 ≤ 4096 := by
  decide

/-- The last byte of memory, no rows at the last address, and fifteen rows up to the end of memory. -/
theorem witness_DrawXorsTheSpriteAndReportsCollision :
    (let s : State := { State.reset with idx := 0xFFF }; s.dataAddr + (1 : Fin 16).val ≤ 4096) ∧
    (let s : State := { State.reset with idx := 0xFFF }; s.dataAddr + (0 : Fin 16).val ≤ 4096) ∧
    (let s : State := { State.reset with idx := 0xFF1 }; s.dataAddr + (15 : Fin 16).val ≤ 4096) := by decide

/-- A lit pixel turned off, and none lit. -/
theorem witness_DrawXors_both_collisions :
    (∃ r c, Framebuffer.pixel (State.reset.fb.set 0 0xF) r c = true ∧ Framebuffer.pixel State.reset.fb r c = false) ∧
    ¬ ∃ r c, Framebuffer.pixel State.reset.fb r c = true ∧ Framebuffer.pixel State.reset.fb r c = false :=
  ⟨⟨0, 0, by decide, by decide⟩, by rintro ⟨r, c, h, h'⟩; rw [h] at h'; cases h'⟩

theorem witness_DrawingTwiceErases :
    (0 : Reg) ≠ VF ∧ (14 : Reg) ≠ VF ∧ ({ State.reset with idx := 0xFF1 } : State).dataAddr + (15 : Fin 16).val ≤ 4096 ∧
    (0x80 : Byte) ≠ 0 ∧ (0x01 : Byte) ≠ 0 := by decide

theorem witness_KeyWaitTakesTheLowestKey : (∀ k, State.reset.keyPressed k = false) ∧
    ∀ k ∈ ([0, 7, 15] : List (Fin 16)), (withKeys State.reset [k]).keyPressed k = true ∧
      ∀ j < k, (withKeys State.reset [k]).keyPressed j = false := by decide

theorem witness_FaultsAreExactlyTheTable :
    faultOf .ret State.reset = some (.stackUnderflow, 0) ∧
    faultOf (.call 0x300) fullStack = some (.stackOverflow, 0) ∧
    faultOf (.drw 1 2 2) { State.reset with idx := 0xFFF } = some (.memRange, 0xFFF) ∧
    faultOf (.ldB 4) { State.reset with idx := 0xFFE } = some (.memRange, 0xFFE) ∧
    faultOf (.stRegs 1) { State.reset with idx := 0xFFF } = some (.memRange, 0xFFF) ∧
    faultOf (.ldRegs 1) { State.reset with idx := 0xFFF } = some (.memRange, 0xFFF) ∧
    faultOf (.skp 2) (withRegs [(2, 16)]) = some (.keyRange, 0) ∧
    faultOf (.sknp 2) (withRegs [(2, 16)]) = some (.keyRange, 0) := by decide

theorem witness_InstructionsKeepToTheirFootprint :
    faultOf .ret { State.reset with sp := 1 } = none ∧ faultOf (.call 0x300) { State.reset with sp := 15 } = none ∧
    faultOf (.drw 1 2 1) { State.reset with idx := 0xFFF } = none ∧
    faultOf (.ldB 4) { State.reset with idx := 0xFFD } = none ∧
    faultOf (.stRegs 0) { State.reset with idx := 0xFFF } = none ∧
    faultOf (.ldRegs 0) { State.reset with idx := 0xFFF } = none ∧
    faultOf (.skp 2) (withRegs [(2, 15)]) = none ∧ faultOf (.sknp 2) (withRegs [(2, 15)]) = none := by decide

theorem witness_PcAfterEveryInstruction :
    ({ State.reset with pc := 0xFFE } : State).pc.toNat + 2 ≤ 4096 ∧
    faultOf .ret { State.reset with pc := 0xFFE } ≠ none ∧ faultOf .cls { State.reset with pc := 0xFFE } = none := by decide

/-- A fetch beyond memory, and a return on an empty stack. -/
theorem witness_HaltHasOneOfTheFiveCauses :
    (∃ s t : State, s.run = .running ∧ step s = .next t ∧ t.run = .halted ∧ t.cause = .pcRange) ∧
    ∃ s t : State, s.run = .running ∧ step s = .next t ∧ t.run = .halted ∧ t.cause = .stackUnderflow :=
  ⟨⟨inBatch { State.reset with pc := 0xFFF }, _, rfl, rfl, rfl, rfl⟩,
   ⟨inBatch (withBytes State.reset 0x200 [0x00, 0xEE]), _, rfl, rfl, rfl, rfl⟩⟩

theorem witness_HaltedStaysHalted : ∀ p ∈ [Phase.tickStart, .tickEnd, .engine 3],
    ∃ t, step { State.reset with run := .halted, cause := .keyRange, phase := p } = .next t := by
  intro p hp
  simp only [List.mem_cons, List.not_mem_nil, or_false] at hp
  rcases hp with rfl | rfl | rfl <;> exact ⟨_, rfl⟩

/-- Two different states that are alike. -/
theorem witness_UnreadableStateIsNeverObserved :
    let s := inBatch State.reset
    let t : State := { s with st := 9, dirty := true, stack := s.stack.set 3 0x777, events := [.unknownOpcode 0 0] }
    s ≠ t ∧ Alike s t ∧ ∃ s', step s = .next s' :=
  ⟨by decide,
   ⟨rfl, rfl, rfl, rfl, fun k h => absurd h (Nat.not_lt_zero _), rfl, rfl, rfl, rfl, rfl, rfl, rfl, rfl, rfl, rfl, rfl, rfl⟩,
   ⟨_, rfl⟩⟩

/-- A running state in mid-batch with a live stack entry, and a halted one. -/
theorem witness_EveryStepKeepsTheInvariant :
    (let s : State := { State.reset with pc := 0xFFE, phase := .engine 0, sp := 1, stack := State.reset.stack.set 0 0x1000 }
     s.Inv ∧ ∃ t, step s = .next t) ∧
    (let s : State := { State.reset with pc := 0x10FE, phase := .tickEnd, run := .halted, cause := .pcRange,
                                         faultPc := 0x10FE, faultAddr := 0x10FE }
     s.Inv ∧ ∃ t, step s = .next t) := by
  refine ⟨⟨⟨by decide, by decide, by decide, by decide, by decide, ?_, ?_, by decide, by decide⟩, ⟨_, rfl⟩⟩,
    ⟨⟨by decide, by decide, by decide, by decide, by decide, ?_, ?_, by decide, by decide⟩, ⟨_, rfl⟩⟩⟩
  · intro h; cases h
  · rintro more ⟨⟩; exact Nat.succ_pos _
  · exact fun _ => ⟨rfl, by decide, rfl⟩
  · rintro more ⟨⟩

/-- The longest image that is loaded, and the shortest that is not. -/
theorem witness_RomImageIsCopiedVerbatim : (List.replicate 3584 (0xAB : Byte)).length ≤ 3584 ∧
    3584 < (List.replicate 3585 (0xAB : Byte)).length := by
  simp only [List.length_replicate]; decide

end Sys2Proof.Tests
end

/-! PROOFS. The fields of a word (00_scope.md R11). -/

namespace Sys2Proof

/-- Settles O4: each field by its place-value law. -/
theorem fieldsByPlaceValue : Obligations.FieldsByPlaceValue := by
  intro op
  exact ⟨toNat_wField op, val_xField op, val_yField op, toNat_nField op, toNat_kkField op, toNat_nnnField op⟩

end Sys2Proof

/-! PROOFS. The decoder undoes the encoder, and the encoder the decoder (30_encoding.md R92, R93, R95, R96). -/

namespace Sys2Proof

/-! ### The words of one major opcode, format by format -/

theorem packNNN_of_wField {op : Word} {w : BitVec 4} (h : (wField op).toNat = w.toNat) :
    packNNN w (nnnField op) = op :=
  BitVec.eq_of_toNat_eq (by rw [toNat_packNNN, toNat_nnnField, ← h, toNat_wField]; omega)

theorem packXKK_of_wField {op : Word} {w : BitVec 4} (h : (wField op).toNat = w.toNat) :
    packXKK w (xField op) (kkField op) = op :=
  word_kk_ext ((wField_packXKK _ _ _).trans (BitVec.eq_of_toNat_eq h.symm)) (xField_packXKK _ _ _) (kkField_packXKK _ _ _)

theorem packXYN_of_wField {op : Word} {w : BitVec 4} (h : (wField op).toNat = w.toNat) :
    packXYN w (xField op) (yField op) (nField op) = op :=
  word_ext ((wField_packXYN _ _ _ _).trans (BitVec.eq_of_toNat_eq h.symm)) (xField_packXYN _ _ _ _)
    (yField_packXYN _ _ _ _) (nField_packXYN _ _ _ _)

theorem packXYN_of_wField_nField {op : Word} {w n : BitVec 4} (hw : (wField op).toNat = w.toNat) (hn : nField op = n) :
    packXYN w (xField op) (yField op) n = op :=
  hn ▸ packXYN_of_wField hw

/-! ### From an instruction with a row to its word and back -/

theorem decodeDefined_packXYN_8 (x y : Reg) (n : BitVec 4) : decodeDefined (packXYN 0x8 x y n) = aluSubop n x y := by
  simp [decodeDefined]

theorem decodeDefined_packXKK_E (x : Reg) (kk : Byte) : decodeDefined (packXKK 0xE x kk) = decodeE kk x := by
  simp [decodeDefined]

theorem decodeDefined_packXKK_F (x : Reg) (kk : Byte) : decodeDefined (packXKK 0xF x kk) = decodeF kk x := by
  simp [decodeDefined]

/-- The case split is by what the dispatch looks at: the whole word, `w` alone, `w` and `n`, or `w` and `kk` (R95). -/
theorem decodeDefined_encode {i : Instr} (h : i.isUnknown = false) : decodeDefined (encode i) = some i := by
  cases i with
  | cls | ret => rfl
  | jp nnn | call nnn | ldI nnn | jpV0 nnn => simp [encode, decodeDefined]
  | seImm x kk | sneImm x kk | ldImm x kk | addImm x kk | rnd x kk => simp [encode, decodeDefined]
  | drw x y n => simp [encode, decodeDefined]
  | seReg x y | sneReg x y => simp [encode, decodeDefined]
  | ldReg x y | orReg x y | andReg x y | xorReg x y | addReg x y | subReg x y | shr x y | subn x y | shl x y =>
    exact decodeDefined_packXYN_8 x y _
  | skp x | sknp x => exact decodeDefined_packXKK_E x _
  | ldVxDt x | ldVxK x | ldDtVx x | ldStVx x | addI x | ldF x | ldB x | stRegs x | ldRegs x =>
    exact decodeDefined_packXKK_F x _
  | dw w => cases h

theorem decode_encode_of_row {i : Instr} (h : i.isUnknown = false) : decode (encode i) = i := by
  rw [decode, decodeDefined_encode h, Option.getD_some]

/-! ### From a word to the instruction with a row, and back -/

theorem encode_of_decodeZero {op : Word} {i : Instr} (h : decodeZero op = some i) :
    i.isUnknown = false ∧ encode i = op := by
  unfold decodeZero at h
  split at h <;> cases h
  all_goals next hop => exact ⟨rfl, (BitVec.eq_of_toNat_eq hop).symm⟩

theorem encode_of_aluSubop {n : BitVec 4} {x y : Reg} {i : Instr} (h : aluSubop n x y = some i) :
    i.isUnknown = false ∧ encode i = packXYN 0x8 x y n := by
  unfold aluSubop at h
  split at h <;> cases h
  all_goals next hn => exact ⟨rfl, congrArg (packXYN 0x8 x y) (BitVec.eq_of_toNat_eq hn.symm)⟩

theorem encode_of_decodeE {kk : Byte} {x : Reg} {i : Instr} (h : decodeE kk x = some i) :
    i.isUnknown = false ∧ encode i = packXKK 0xE x kk := by
  unfold decodeE at h
  split at h <;> cases h
  all_goals next hkk => exact ⟨rfl, congrArg (packXKK 0xE x) (BitVec.eq_of_toNat_eq hkk.symm)⟩

theorem encode_of_decodeF {kk : Byte} {x : Reg} {i : Instr} (h : decodeF kk x = some i) :
    i.isUnknown = false ∧ encode i = packXKK 0xF x kk := by
  unfold decodeF at h
  split at h <;> cases h
  all_goals next hkk => exact ⟨rfl, congrArg (packXKK 0xF x) (BitVec.eq_of_toNat_eq hkk.symm)⟩

/-- What the decoder recognises has a row and encodes back to the word; one case per major opcode (R95). -/
theorem encode_of_decodeDefined {op : Word} {i : Instr} (h : decodeDefined op = some i) :
    i.isUnknown = false ∧ encode i = op := by
  unfold decodeDefined at h
  split at h
  case h_1 => exact encode_of_decodeZero h
  case h_2 hw | h_3 hw | h_11 hw | h_12 hw => cases h; exact ⟨rfl, packNNN_of_wField hw⟩
  case h_4 hw | h_5 hw | h_7 hw | h_8 hw | h_13 hw => cases h; exact ⟨rfl, packXKK_of_wField hw⟩
  case h_14 hw => cases h; exact ⟨rfl, packXYN_of_wField hw⟩
  case h_6 hw | h_10 hw =>
    split at h <;> cases h
    next hn => exact ⟨rfl, packXYN_of_wField_nField hw hn⟩
  case h_9 hw =>
    obtain ⟨hknown, henc⟩ := encode_of_aluSubop h
    exact ⟨hknown, henc.trans (packXYN_of_wField hw)⟩
  case h_15 hw =>
    obtain ⟨hknown, henc⟩ := encode_of_decodeE h
    exact ⟨hknown, henc.trans (packXKK_of_wField hw)⟩
  case h_16 =>
    have hw : (wField op).toNat = 15 := by simp only [imp_false] at *; omega
    obtain ⟨hknown, henc⟩ := encode_of_decodeF h
    exact ⟨hknown, henc.trans (packXKK_of_wField hw)⟩

/-! ### The unknown words -/

theorem Instr.row_mem_opcodeRows {i : Instr} (h : i.isUnknown = false) : i.row ∈ opcodeRows := by
  cases i with
  | dw w => cases h
  | _ => simp [Instr.row, opcodeRows, opcodeRowsControl, opcodeRowsAlu, opcodeRowsMid, opcodeRowsF]

open Laws.RowOfEncoding in
/-- The laws of `Laws.RowOfEncoding`, put together. -/
theorem row_covers_encode : ∀ i : Instr, i.row.covers (encode i) = true
  | .cls => cls | .ret => ret | .jp nnn => jp nnn | .call nnn => call nnn | .seImm x kk => seImm x kk
  | .sneImm x kk => sneImm x kk | .seReg x y => seReg x y | .ldImm x kk => ldImm x kk
  | .addImm x kk => addImm x kk | .ldReg x y => ldReg x y | .orReg x y => orReg x y
  | .andReg x y => andReg x y | .xorReg x y => xorReg x y | .addReg x y => addReg x y
  | .subReg x y => subReg x y | .shr x y => shr x y | .subn x y => subn x y | .shl x y => shl x y
  | .sneReg x y => sneReg x y | .ldI nnn => ldI nnn | .jpV0 nnn => jpV0 nnn | .rnd x kk => rnd x kk
  | .drw x y n => drw x y n | .skp x => skp x | .sknp x => sknp x | .ldVxDt x => ldVxDt x
  | .ldVxK x => ldVxK x | .ldDtVx x => ldDtVx x | .ldStVx x => ldStVx x | .addI x => addI x | .ldF x => ldF x
  | .ldB x => ldB x | .stRegs x => stRegs x | .ldRegs x => ldRegs x | .dw word => dw word

theorem decode_of_isUnknownWord {op : Word} (h : isUnknownWord op = true) : decode op = .dw op := by
  have hnone : decodeDefined op = none := Option.eq_none_iff_forall_ne_some.mpr fun i hi => by
    obtain ⟨hknown, henc⟩ := encode_of_decodeDefined hi
    have hcov : i.row.covers op = true := henc ▸ row_covers_encode i
    have hnot : (!i.row.covers op) = true := List.all_eq_true.mp h i.row (Instr.row_mem_opcodeRows hknown)
    rw [hcov] at hnot
    cases hnot
  rw [decode, hnone, Option.getD_none]

/-- Settles O1: a form with a row is recognised from its word (`decodeDefined_encode`), and an unknown word is recognised
as none of them, since what the decoder recognises lies in its own row. -/
theorem decodeInvertsEncode : Obligations.DecodeInvertsEncode := by
  intro i hwf
  cases i with
  | dw w => exact decode_of_isUnknownWord hwf
  | _ => exact decode_encode_of_row rfl

end Sys2Proof

/-! PROOFS. The jump and the register skips (40_control_flow.md R121, R124 to R128). -/

namespace Sys2Proof.Machine

/-! ### Frames of the two PC updates -/

/-- Every part but `PC` reads fields that a jump leaves as they are. -/
theorem keepsExcept_jumpTo (s : State) (a : Word) : KeepsExcept [.pc] s (s.jumpTo a) := by
  intro p hp
  have hself : SamePart s s p := KeepsExcept.refl [] s p List.not_mem_nil
  cases p with
  | pc => exact absurd (List.mem_singleton_self Part.pc) hp
  | _ => exact hself

theorem keepsExcept_skipIf (s : State) (c : Bool) : KeepsExcept [.pc] s (s.skipIf c) := keepsExcept_jumpTo s _

/-! ### What the jump and the register skips answer -/

theorem exec_jp (nnn : BitVec 12) (s : State) : exec (.jp nnn) s = .next (s.jumpTo (addrImm nnn)) := rfl

theorem exec_seImm (x : Reg) (kk : Byte) (s : State) :
    exec (.seImm x kk) s = .next (s.skipIf (s.reg x == kk)) := rfl

theorem exec_sneImm (x : Reg) (kk : Byte) (s : State) :
    exec (.sneImm x kk) s = .next (s.skipIf (s.reg x != kk)) := rfl

theorem exec_seReg (x y : Reg) (s : State) : exec (.seReg x y) s = .next (s.skipIf (s.reg x == s.reg y)) := rfl

theorem exec_sneReg (x y : Reg) (s : State) : exec (.sneReg x y) s = .next (s.skipIf (s.reg x != s.reg y)) := rfl

/-- An instruction that answers a skip on the test of `p` adds 4 to `PC` where `p` holds, else 2, and keeps the rest. -/
theorem exec_skip {i : Instr} {s : State} {c : Bool} {p : Prop} [Decidable p]
    (hexec : exec i s = .next (s.skipIf c)) (htest : c = true ↔ p) :
    ∃ t, exec i s = .next t ∧ t.pc = s.pc + (if p then 4 else 2) ∧ KeepsExcept [.pc] s t :=
  ⟨_, hexec, by simp only [skipIf_pc, htest], keepsExcept_skipIf s c⟩

/-! ### The address immediate -/

/-- Zero extension keeps the number (30_encoding.md R94). -/
theorem toNat_addrImm (nnn : BitVec 12) : (addrImm nnn).toNat = nnn.toNat :=
  BitVec.toNat_setWidth_of_le (by decide)

/-! ### The words, operands in the order of the statement's sums -/

theorem toNat_encode_seImm (x : Reg) (kk : Byte) : (encode (.seImm x kk)).toNat = 0x3000 + 256 * x.val + kk.toNat := by
  rw [encode, toNat_packXKK, Nat.mul_comm x.val]; rfl

theorem toNat_encode_sneImm (x : Reg) (kk : Byte) : (encode (.sneImm x kk)).toNat = 0x4000 + 256 * x.val + kk.toNat := by
  rw [encode, toNat_packXKK, Nat.mul_comm x.val]; rfl

theorem toNat_encode_seReg (x y : Reg) : (encode (.seReg x y)).toNat = 0x5000 + 256 * x.val + 16 * y.val := by
  rw [encode, toNat_packXYN, Nat.mul_comm x.val, Nat.mul_comm y.val]; rfl

theorem toNat_encode_sneReg (x y : Reg) : (encode (.sneReg x y)).toNat = 0x9000 + 256 * x.val + 16 * y.val := by
  rw [encode, toNat_packXYN, Nat.mul_comm x.val, Nat.mul_comm y.val]; rfl

/-! ### The statements -/

/-- Settles O20: the instruction answers a jump to its immediate, which zero extension keeps as a number. -/
theorem jumpSetsPc : Obligations.JumpSetsPc := by
  intro s nnn
  exact ⟨toNat_packNNN 0x1 nnn, _, exec_jp nnn s, toNat_addrImm nnn, keepsExcept_jumpTo s _⟩

/-- Settles O22: each of the four answers a skip (`exec_skip`), on equality or on its negation. -/
theorem skipsAddFourOrTwo : Obligations.SkipsAddFourOrTwo := by
  intro s x y kk
  exact ⟨⟨toNat_encode_seImm x kk, exec_skip (exec_seImm x kk s) beq_iff_eq⟩,
    ⟨toNat_encode_sneImm x kk, exec_skip (exec_sneImm x kk s) bne_iff_ne⟩,
    ⟨toNat_encode_seReg x y, exec_skip (exec_seReg x y s) beq_iff_eq⟩,
    ⟨toNat_encode_sneReg x y, exec_skip (exec_sneReg x y s) bne_iff_ne⟩⟩

end Sys2Proof.Machine

/-! PROOFS. The immediate load and the shape it shares with the unflagged register writes (41_load_alu.md R140). -/

namespace Sys2Proof.Machine

/-! ### Writing one register and advancing -/

/-- Every part but the registers and `PC` reads fields that the write and the advance leave as they are. -/
theorem keepsExcept_setReg_advance (s : State) (x : Reg) (b : Byte) :
    KeepsExcept [.regs, .pc] s (s.setReg x b).advance := by
  intro p hp
  have hself : SamePart s s p := KeepsExcept.refl [] s p List.not_mem_nil
  cases p with
  | regs => exact absurd List.mem_cons_self hp
  | pc => exact absurd (List.mem_cons_of_mem _ List.mem_cons_self) hp
  | _ => exact hself

/-- The advance does not touch the registers, so they read as after the write. -/
theorem reg_setReg_advance (s : State) (x r : Reg) (b : Byte) :
    (s.setReg x b).advance.reg r = if r = x then b else s.reg r :=
  (reg_of_v (advance_v _) r).trans (reg_setReg s x r b)

theorem regResult_setReg_advance (s : State) (x : Reg) (b : Byte) : RegResult s (s.setReg x b).advance x b where
  dest := (reg_setReg_advance s x x b).trans (if_pos rfl)
  others r hr := (reg_setReg_advance s x r b).trans (if_neg hr)
  pc := advance_pc (s.setReg x b)
  frame := keepsExcept_setReg_advance s x b

/-! ### The word and the answer of the immediate load -/

theorem toNat_encode_ldImm (x : Reg) (kk : Byte) : (encode (.ldImm x kk)).toNat = 0x6000 + 256 * x.val + kk.toNat := by
  rw [encode, toNat_packXKK, Nat.mul_comm x.val]; rfl

theorem exec_ldImm (x : Reg) (kk : Byte) (s : State) : exec (.ldImm x kk) s = .next (s.setReg x kk).advance := rfl

/-- Settles O24: the instruction answers one register write and the advance (`regResult_setReg_advance`), the same for
`x = 15`. -/
theorem loadImmediateWritesOnlyVx : Obligations.LoadImmediateWritesOnlyVx := by
  intro s x kk
  exact ⟨toNat_encode_ldImm x kk, _, exec_ldImm x kk s, regResult_setReg_advance s x kk⟩

end Sys2Proof.Machine

/-! PROOFS. The index load (42_index_memory.md R160). -/

namespace Sys2Proof.Machine

/-- Every part but `I` and `PC` reads fields that the index write and the advance leave as they are. -/
theorem keepsExcept_setIdx_advance (s : State) (a : Word) : KeepsExcept [.idx, .pc] s (s.setIdx a).advance := by
  intro p hp
  have hself : SamePart s s p := KeepsExcept.refl [] s p List.not_mem_nil
  cases p with
  | idx => exact absurd List.mem_cons_self hp
  | pc => exact absurd (List.mem_cons_of_mem _ List.mem_cons_self) hp
  | _ => exact hself

theorem exec_ldI (nnn : BitVec 12) (s : State) : exec (.ldI nnn) s = .next (s.setIdx (addrImm nnn)).advance := rfl

/-- Settles O31: the instruction answers the index write of its immediate, which zero extension keeps as a number, and the
advance. -/
theorem loadIndexTakesTheAddress : Obligations.LoadIndexTakesTheAddress := by
  intro s nnn
  exact ⟨toNat_packNNN 0xA nnn, _, exec_ldI nnn s, toNat_addrImm nnn, advance_pc (s.setIdx (addrImm nnn)),
    keepsExcept_setIdx_advance s (addrImm nnn)⟩

end Sys2Proof.Machine

/-! PROOFS. The timer read and the timer writes (44_keypad_timers.md R203, R206, R207). -/

namespace Sys2Proof.Machine

/-! ### The words -/

/-- A word of major opcode `F`, the low byte added to the opcode as in the statement's sums. -/
theorem toNat_packXKK_F (x : Reg) (kk : Byte) : (packXKK 0xF x kk).toNat = 0xF000 + kk.toNat + 256 * x.val := by
  rw [toNat_packXKK, Nat.mul_comm x.val, Nat.add_right_comm]; rfl

theorem toNat_encode_ldVxDt (x : Reg) : (encode (.ldVxDt x)).toNat = 0xF007 + 256 * x.val := toNat_packXKK_F x 0x07

theorem toNat_encode_ldDtVx (x : Reg) : (encode (.ldDtVx x)).toNat = 0xF015 + 256 * x.val := toNat_packXKK_F x 0x15

theorem toNat_encode_ldStVx (x : Reg) : (encode (.ldStVx x)).toNat = 0xF018 + 256 * x.val := toNat_packXKK_F x 0x18

/-! ### Writing the timers and advancing -/

/-- A timer that is given its own value stays, and every part but the timers and `PC` reads fields that the write and
the advance leave as they are. -/
theorem samePart_setTimers_advance {s : State} {d t : Byte} {p : Part} (hpc : p ≠ .pc) (hdt : p = .dt → d = s.dt)
    (hst : p = .st → t = s.st) : SamePart s { s with dt := d, st := t }.advance p := by
  have hself : SamePart s s p := KeepsExcept.refl [] s p List.not_mem_nil
  cases p with
  | pc => exact absurd rfl hpc
  | dt => exact hdt rfl
  | st => exact hst rfl
  | _ => exact hself

theorem keepsExcept_setDt_advance (s : State) (d : Byte) : KeepsExcept [.dt, .pc] s { s with dt := d }.advance := by
  intro p hp
  have ⟨hdt, hpc⟩ : p ≠ .dt ∧ p ≠ .pc := by simpa using hp
  exact samePart_setTimers_advance hpc (fun h => absurd h hdt) (fun _ => rfl)

theorem keepsExcept_setSt_advance (s : State) (t : Byte) : KeepsExcept [.st, .pc] s { s with st := t }.advance := by
  intro p hp
  have ⟨hst, hpc⟩ : p ≠ .st ∧ p ≠ .pc := by simpa using hp
  exact samePart_setTimers_advance hpc (fun _ => rfl) (fun h => absurd h hst)

/-! ### What the three instructions answer -/

theorem exec_ldVxDt (x : Reg) (s : State) : exec (.ldVxDt x) s = .next (s.setReg x s.dt).advance := rfl

theorem exec_ldDtVx (x : Reg) (s : State) : exec (.ldDtVx x) s = .next { s with dt := s.reg x }.advance := rfl

theorem exec_ldStVx (x : Reg) (s : State) : exec (.ldStVx x) s = .next { s with st := s.reg x }.advance := rfl

/-! ### The statements -/

/-- Settles O42: the instruction answers one register write of `DT` and the advance (`regResult_setReg_advance`). -/
theorem delayTimerRead : Obligations.DelayTimerRead := by
  intro s x
  exact ⟨toNat_encode_ldVxDt x, _, exec_ldVxDt x s, regResult_setReg_advance s x s.dt⟩

/-- Settles O43: each of the two answers one timer write of `Vx` and the advance, which keep the other timer. -/
theorem timersWritten : Obligations.TimersWritten := by
  intro s x
  exact ⟨⟨toNat_encode_ldDtVx x, _, exec_ldDtVx x s, advance_dt _, advance_pc _,
      keepsExcept_setDt_advance s (s.reg x)⟩,
    ⟨toNat_encode_ldStVx x, _, exec_ldStVx x s, advance_st _, advance_pc _,
      keepsExcept_setSt_advance s (s.reg x)⟩⟩

end Sys2Proof.Machine

/-! PROOFS. What the instructions without a fault and without a wait answer, beyond those above: each is its own arm. -/

namespace Sys2Proof.Machine

theorem exec_cls (s : State) : exec .cls s = .next (s.setDisplay (Vector.replicate 32 0)).advance := rfl

theorem exec_jpV0 (nnn : BitVec 12) (s : State) : exec (.jpV0 nnn) s = .next (s.jumpTo (s.offsetTarget nnn)) := rfl

theorem exec_addImm (x : Reg) (kk : Byte) (s : State) :
    exec (.addImm x kk) s = .next (s.setReg x (s.reg x + kk)).advance := rfl

theorem exec_ldReg (x y : Reg) (s : State) : exec (.ldReg x y) s = .next (s.setReg x (s.reg y)).advance := rfl

theorem exec_orReg (x y : Reg) (s : State) :
    exec (.orReg x y) s = .next (s.setReg x (s.reg x ||| s.reg y)).advance := rfl

theorem exec_andReg (x y : Reg) (s : State) :
    exec (.andReg x y) s = .next (s.setReg x (s.reg x &&& s.reg y)).advance := rfl

theorem exec_xorReg (x y : Reg) (s : State) :
    exec (.xorReg x y) s = .next (s.setReg x (s.reg x ^^^ s.reg y)).advance := rfl

theorem exec_addReg (x y : Reg) (s : State) : exec (.addReg x y) s =
    .next (s.writeFlagged x (carryFlag (s.reg x) (s.reg y)) (s.reg x + s.reg y)) := rfl

theorem exec_subReg (x y : Reg) (s : State) : exec (.subReg x y) s =
    .next (s.writeFlagged x (noBorrowFlag (s.reg x) (s.reg y)) (s.reg x - s.reg y)) := rfl

theorem exec_shr (x y : Reg) (s : State) :
    exec (.shr x y) s = .next (s.writeFlagged x (lowBitFlag (s.reg x)) (s.reg x >>> 1)) := rfl

theorem exec_subn (x y : Reg) (s : State) : exec (.subn x y) s =
    .next (s.writeFlagged x (noBorrowFlag (s.reg y) (s.reg x)) (s.reg y - s.reg x)) := rfl

theorem exec_shl (x y : Reg) (s : State) :
    exec (.shl x y) s = .next (s.writeFlagged x (highBitFlag (s.reg x)) (s.reg x <<< 1)) := rfl

theorem exec_rnd (x : Reg) (kk : Byte) (s : State) : exec (.rnd x kk) s =
    .next ({ s with draws := s.draws + 1 }.storeMasked x (Config.randByte s.draws) kk) := rfl

theorem exec_addI (x : Reg) (s : State) : exec (.addI x) s = .next (s.setIdx (s.indexSum x)).advance := rfl

theorem exec_ldF (x : Reg) (s : State) : exec (.ldF x) s = .next (s.setIdx (s.glyphAddr x)).advance := rfl

theorem exec_ldB (x : Reg) (s : State) : exec (.ldB x) s = .next (s.storeAtIdx (bcdDigits (s.reg x))) := rfl

theorem exec_stRegs (x : Reg) (s : State) : exec (.stRegs x) s = .next (s.storeAtIdx (s.regsUpTo x)) := rfl

theorem exec_dw (word : Word) (s : State) :
    exec (.dw word) s = .next (s.emit (.unknownOpcode s.pc word)).advance := rfl

end Sys2Proof.Machine

/-! PROOFS. The three forms of an engine step, each from its condition (47_scheduler.md R230, R231). -/

namespace Sys2Proof.Machine

variable {s : State}

theorem engineStep_of_halted (hrun : s.run = .halted) : engineStep s = .next s := by
  simp only [engineStep, hrun]

theorem engineStep_of_beyond (hrun : s.run = .running) (hpc : 4096 < s.pc.toNat + 2) :
    engineStep s = .next (s.raise .pcRange s.pc) := by
  have hcan : s.canFetch = false := by
    simp only [State.canFetch, inBounds, Config.memSize, decide_eq_false_iff_not]; omega
  simp only [engineStep, hrun, hcan, Bool.false_eq_true, if_false]

theorem engineStep_of_inside (hrun : s.run = .running) (hpc : s.pc.toNat + 2 ≤ 4096) :
    engineStep s = exec (decode s.fetchWord) s := by
  have hcan : s.canFetch = true := (inBounds_iff _ _).mpr hpc
  simp only [engineStep, hrun, hcan, if_true]

end Sys2Proof.Machine

/-! PROOFS. Machines that no program can tell apart stay so: every operation is a congruence of `Alike` (10_state.md R29,
R31, R40, 45_unknown_opcode.md R221). -/

namespace Sys2Proof.Machine

variable {s t : State}

/-! ### What alike states read alike -/

theorem Alike.reg (h : Alike s t) (x : Reg) : t.reg x = s.reg x := reg_of_v h.regs x

theorem Alike.keyPressed (h : Alike s t) (k : Fin 16) : t.keyPressed k = s.keyPressed k := by
  rw [State.keyPressed, State.keyPressed, h.keys]

theorem Alike.firstPressed (h : Alike s t) : t.firstPressed = s.firstPressed := by
  simp only [State.firstPressed, h.keyPressed]

theorem Alike.fetchWord (h : Alike s t) : t.fetchWord = s.fetchWord := by
  rw [State.fetchWord, State.fetchWord, h.pc, readByte_of_mem h.mem, readByte_of_mem h.mem]

theorem Alike.stopRequested (h : Alike s t) : t.stopRequested = s.stopRequested := by
  rw [State.stopRequested, State.stopRequested, h.ticks]

/-! ### The operations keep states alike -/

theorem Alike.jumpTo (h : Alike s t) {a a' : Word} (ha : a' = a) : Alike (s.jumpTo a) (t.jumpTo a') :=
  { h with pc := ha }

theorem Alike.advance (h : Alike s t) : Alike s.advance t.advance := h.jumpTo (by rw [h.pc])

theorem Alike.skipIf (h : Alike s t) {c c' : Bool} (hc : c' = c) : Alike (s.skipIf c) (t.skipIf c') :=
  h.jumpTo (by rw [h.pc, hc])

theorem Alike.setV (h : Alike s t) {v v' : Vector Byte 16} (hv : v' = v) : Alike { s with v := v } { t with v := v' } :=
  { h with regs := hv }

theorem Alike.setReg (h : Alike s t) (x : Reg) {b b' : Byte} (hb : b' = b) : Alike (s.setReg x b) (t.setReg x b') :=
  h.setV (by rw [h.regs, hb])

theorem Alike.writeFlagged (h : Alike s t) (x : Reg) {f f' : Bool} {b b' : Byte} (hf : f' = f) (hb : b' = b) :
    Alike (s.writeFlagged x f b) (t.writeFlagged x f' b') :=
  ((h.setReg VF (congrArg flagByte hf)).setReg x hb).advance

theorem Alike.loadRegs (h : Alike s t) {bs bs' : List Byte} (hbs : bs' = bs) : Alike (s.loadRegs bs) (t.loadRegs bs') :=
  h.setV (by simp only [h.regs, hbs])

theorem Alike.setIdx (h : Alike s t) {a a' : Word} (ha : a' = a) : Alike (s.setIdx a) (t.setIdx a') :=
  { h with idx := ha }

theorem Alike.setDisplay (h : Alike s t) {f f' : Framebuffer} (hf : f' = f) : Alike (s.setDisplay f) (t.setDisplay f') :=
  { h with fb := hf }

theorem Alike.emit (h : Alike s t) (e e' : Event) : Alike (s.emit e) (t.emit e') := { h with }

theorem Alike.raise (h : Alike s t) (c : Cause) {a a' : Word} (ha : a' = a) : Alike (s.raise c a) (t.raise c a') :=
  { h with run := rfl, cause := rfl, faultPc := h.pc, faultAddr := ha }

theorem Alike.storeAtIdx (h : Alike s t) {bs bs' : List Byte} (hbs : bs' = bs) :
    Alike (s.storeAtIdx bs) (t.storeAtIdx bs') := by
  subst hbs
  rcases storeAtIdx_cases s bs' with ⟨hs, es⟩ | ⟨hs, es⟩ <;>
    rcases storeAtIdx_cases t bs' with ⟨ht, et⟩ | ⟨ht, et⟩ <;> rw [h.idx] at ht <;> rw [es, et]
  · exact { h with mem := by simp only [h.mem, h.idx], pc := by simp only [h.pc] }
  · omega
  · omega
  · exact h.raise _ h.idx

theorem Alike.endCycle (h : Alike s t) (more : Nat) : Alike (s.endCycle more) (t.endCycle more) :=
  { h with phase := rfl }

theorem Alike.beginTick (h : Alike s t) (stop : Bool) (lessOne : Nat) :
    Alike (s.beginTick stop lessOne) (t.beginTick stop lessOne) := by
  cases stop with
  | true => exact { h with sched := rfl }
  | false => exact { h with dt := congrArg timerTick h.dt, phase := rfl }

theorem Alike.endTick (h : Alike s t) (sample : Keys) : Alike (s.endTick sample) (t.endTick sample) := by
  rw [endTick_eq, endTick_eq]
  exact { h with keys := rfl, sched := by simp only [h.run, h.sched], phase := rfl, ticks := by simp only [h.ticks] }

/-! ### The instructions that can fault or wait -/

/-- Two outcomes are next states, and alike. -/
def AlikeNext (r r' : Result) : Prop := ∃ s' t', r = .next s' ∧ r' = .next t' ∧ Alike s' t'

/-- The popped entry is live, so it is the same in both. -/
theorem Alike.exec_ret (h : Alike s t) : AlikeNext (exec .ret s) (exec .ret t) := by
  rcases exec_ret_cases s with ⟨hs, es⟩ | ⟨hs, es⟩ <;> rcases exec_ret_cases t with ⟨ht, et⟩ | ⟨ht, et⟩ <;>
    rw [h.sp] at ht
  · exact ⟨_, _, es, et, h.raise _ rfl⟩
  · omega
  · omega
  · have htop : t.stack[t.sp.val - 1] = s.stack[s.sp.val - 1] := by
      simp only [h.sp]
      exact h.live ⟨s.sp.val - 1, by omega⟩ (by simp only; omega)
    refine ⟨_, _, es, et, { h with pc := htop, sp := by simp only [h.sp], live := fun k hk => ?_ }⟩
    exact h.live k (by simp only at hk; omega)

/-- The pushed entry is the same in both, and every other live entry was live before. -/
theorem Alike.exec_call (h : Alike s t) (nnn : BitVec 12) : AlikeNext (exec (.call nnn) s) (exec (.call nnn) t) := by
  rcases exec_call_cases nnn s with ⟨hs, es⟩ | ⟨hs, es⟩ <;> rcases exec_call_cases nnn t with ⟨ht, et⟩ | ⟨ht, et⟩ <;>
    rw [h.sp] at ht
  · exact ⟨_, _, es, et, h.raise _ rfl⟩
  · omega
  · omega
  · refine ⟨_, _, es, et, { h with pc := rfl, sp := by simp only [h.sp], live := fun k hk => ?_ }⟩
    simp only [Fin.getElem_fin, Vector.getElem_set, h.sp, h.pc]
    split
    · rfl
    · exact h.live k (by simp only at hk; omega)

theorem Alike.exec_ldRegs (h : Alike s t) (x : Reg) : AlikeNext (exec (.ldRegs x) s) (exec (.ldRegs x) t) := by
  rcases exec_ldRegs_cases x s with ⟨hs, es⟩ | ⟨hs, es⟩ <;> rcases exec_ldRegs_cases x t with ⟨ht, et⟩ | ⟨ht, et⟩ <;>
    rw [h.idx] at ht
  · exact ⟨_, _, es, et, h.raise _ h.idx⟩
  · omega
  · omega
  · exact ⟨_, _, es, et, (h.loadRegs (by rw [h.mem, h.idx])).advance⟩

theorem Alike.exec_drw (h : Alike s t) (x y : Reg) (n : Fin 16) :
    AlikeNext (exec (.drw x y n) s) (exec (.drw x y n) t) := by
  rcases exec_drw_cases x y n s with ⟨hs, es⟩ | ⟨hs, ds, hds, es⟩ <;>
    rcases exec_drw_cases x y n t with ⟨ht, et⟩ | ⟨ht, dt, hdt, et⟩ <;> rw [h.idx] at ht
  · exact ⟨_, _, es, et, h.raise _ h.idx⟩
  · omega
  · omega
  · have hd : dt = ds := by rw [hdt, hds, h.fb, h.mem, h.idx, h.reg, h.reg]
    exact ⟨_, _, es, et, ((h.setDisplay (congrArg Prod.fst hd)).setReg VF (by rw [hd])).advance⟩

theorem Alike.exec_skp (h : Alike s t) (x : Reg) : AlikeNext (exec (.skp x) s) (exec (.skp x) t) := by
  rcases exec_skp_cases x s with ⟨hs, es⟩ | ⟨hs, es⟩ <;> rcases exec_skp_cases x t with ⟨ht, et⟩ | ⟨ht, et⟩ <;>
    have hreg := congrArg BitVec.toNat (h.reg x)
  · exact ⟨_, _, es, et, h.raise _ rfl⟩
  · omega
  · omega
  · exact ⟨_, _, es, et, h.skipIf (by simp only [h.reg, h.keyPressed])⟩

theorem Alike.exec_sknp (h : Alike s t) (x : Reg) : AlikeNext (exec (.sknp x) s) (exec (.sknp x) t) := by
  rcases exec_sknp_cases x s with ⟨hs, es⟩ | ⟨hs, es⟩ <;> rcases exec_sknp_cases x t with ⟨ht, et⟩ | ⟨ht, et⟩ <;>
    have hreg := congrArg BitVec.toNat (h.reg x)
  · exact ⟨_, _, es, et, h.raise _ rfl⟩
  · omega
  · omega
  · exact ⟨_, _, es, et, h.skipIf (by simp only [h.reg, h.keyPressed])⟩

theorem Alike.exec_ldVxK (h : Alike s t) (x : Reg) : AlikeNext (exec (.ldVxK x) s) (exec (.ldVxK x) t) := by
  simp only [exec, execLdVxK, h.firstPressed]
  cases s.firstPressed with
  | none => exact ⟨_, _, rfl, rfl, h⟩
  | some k => exact ⟨_, _, rfl, rfl, (h.setReg x rfl).advance⟩

/-! ### Every instruction and every step -/

theorem Alike.exec (h : Alike s t) (i : Instr) : AlikeNext (exec i s) (exec i t) := by
  cases i with
  | cls => exact ⟨_, _, exec_cls s, exec_cls t, (h.setDisplay rfl).advance⟩
  | ret => exact h.exec_ret
  | jp nnn => exact ⟨_, _, exec_jp nnn s, exec_jp nnn t, h.jumpTo rfl⟩
  | call nnn => exact h.exec_call nnn
  | seImm x kk => exact ⟨_, _, exec_seImm x kk s, exec_seImm x kk t, h.skipIf (by rw [h.reg])⟩
  | sneImm x kk => exact ⟨_, _, exec_sneImm x kk s, exec_sneImm x kk t, h.skipIf (by rw [h.reg])⟩
  | seReg x y => exact ⟨_, _, exec_seReg x y s, exec_seReg x y t, h.skipIf (by rw [h.reg, h.reg])⟩
  | sneReg x y => exact ⟨_, _, exec_sneReg x y s, exec_sneReg x y t, h.skipIf (by rw [h.reg, h.reg])⟩
  | ldImm x kk => exact ⟨_, _, exec_ldImm x kk s, exec_ldImm x kk t, (h.setReg x rfl).advance⟩
  | addImm x kk => exact ⟨_, _, exec_addImm x kk s, exec_addImm x kk t, (h.setReg x (by rw [h.reg])).advance⟩
  | ldReg x y => exact ⟨_, _, exec_ldReg x y s, exec_ldReg x y t, (h.setReg x (h.reg y)).advance⟩
  | orReg x y => exact ⟨_, _, exec_orReg x y s, exec_orReg x y t, (h.setReg x (by rw [h.reg, h.reg])).advance⟩
  | andReg x y => exact ⟨_, _, exec_andReg x y s, exec_andReg x y t, (h.setReg x (by rw [h.reg, h.reg])).advance⟩
  | xorReg x y => exact ⟨_, _, exec_xorReg x y s, exec_xorReg x y t, (h.setReg x (by rw [h.reg, h.reg])).advance⟩
  | addReg x y =>
    exact ⟨_, _, exec_addReg x y s, exec_addReg x y t,
      h.writeFlagged x (by rw [h.reg, h.reg]) (by rw [h.reg, h.reg])⟩
  | subReg x y =>
    exact ⟨_, _, exec_subReg x y s, exec_subReg x y t,
      h.writeFlagged x (by rw [h.reg, h.reg]) (by rw [h.reg, h.reg])⟩
  | shr x y => exact ⟨_, _, exec_shr x y s, exec_shr x y t, h.writeFlagged x (by rw [h.reg]) (by rw [h.reg])⟩
  | subn x y =>
    exact ⟨_, _, exec_subn x y s, exec_subn x y t, h.writeFlagged x (by rw [h.reg, h.reg]) (by rw [h.reg, h.reg])⟩
  | shl x y => exact ⟨_, _, exec_shl x y s, exec_shl x y t, h.writeFlagged x (by rw [h.reg]) (by rw [h.reg])⟩
  | ldI nnn => exact ⟨_, _, exec_ldI nnn s, exec_ldI nnn t, (h.setIdx rfl).advance⟩
  | jpV0 nnn =>
    exact ⟨_, _, exec_jpV0 nnn s, exec_jpV0 nnn t, h.jumpTo (by rw [State.offsetTarget, State.offsetTarget, h.reg])⟩
  | rnd x kk =>
    have hdrawn : Alike { s with draws := s.draws + 1 } { t with draws := t.draws + 1 } :=
      { h with draws := congrArg (· + 1) h.draws }
    exact ⟨_, _, exec_rnd x kk s, exec_rnd x kk t, (hdrawn.setReg x (by rw [h.draws])).advance⟩
  | drw x y n => exact h.exec_drw x y n
  | skp x => exact h.exec_skp x
  | sknp x => exact h.exec_sknp x
  | ldVxDt x => exact ⟨_, _, exec_ldVxDt x s, exec_ldVxDt x t, (h.setReg x h.dt).advance⟩
  | ldVxK x => exact h.exec_ldVxK x
  | ldDtVx x =>
    have hset : Alike { s with dt := s.reg x } { t with dt := t.reg x } := { h with dt := h.reg x }
    exact ⟨_, _, exec_ldDtVx x s, exec_ldDtVx x t, hset.advance⟩
  | ldStVx x =>
    have hset : Alike { s with st := s.reg x } { t with st := t.reg x } := { h with }
    exact ⟨_, _, exec_ldStVx x s, exec_ldStVx x t, hset.advance⟩
  | addI x =>
    exact ⟨_, _, exec_addI x s, exec_addI x t,
      (h.setIdx (by rw [State.indexSum, State.indexSum, h.idx, h.reg])).advance⟩
  | ldF x =>
    exact ⟨_, _, exec_ldF x s, exec_ldF x t, (h.setIdx (by rw [State.glyphAddr, State.glyphAddr, h.reg])).advance⟩
  | ldB x => exact ⟨_, _, exec_ldB x s, exec_ldB x t, h.storeAtIdx (by rw [h.reg])⟩
  | stRegs x =>
    exact ⟨_, _, exec_stRegs x s, exec_stRegs x t,
      h.storeAtIdx (by rw [State.regsUpTo, State.regsUpTo, h.regs])⟩
  | ldRegs x => exact h.exec_ldRegs x
  | dw word => exact ⟨_, _, exec_dw word s, exec_dw word t, (h.emit _ _).advance⟩

theorem Alike.engineStep (h : Alike s t) : AlikeNext (engineStep s) (engineStep t) := by
  have hpc := congrArg BitVec.toNat h.pc
  rcases engineStep_cases s with ⟨hrun, es⟩ | ⟨hrun, hbeyond, es⟩ | ⟨hrun, hinside, es⟩
  · exact ⟨_, _, es, engineStep_of_halted (h.run.trans hrun), h⟩
  · exact ⟨_, _, es, engineStep_of_beyond (h.run.trans hrun) (by omega), h.raise _ h.pc⟩
  · rw [es, engineStep_of_inside (h.run.trans hrun) (by omega), h.fetchWord]
    exact h.exec _

/-- One case per position in the tick. -/
theorem Alike.step (h : Alike s t) : AlikeNext (step s) (step t) := by
  cases hsched : s.sched with
  | stopped => exact ⟨_, _, step_stopped hsched, step_stopped (h.sched.trans hsched), h⟩
  | active =>
    have hsched' := h.sched.trans hsched
    cases hphase : s.phase with
    | tickStart =>
      refine ⟨_, _, step_tickStart hsched hphase, step_tickStart hsched' (h.phase.trans hphase), ?_⟩
      rw [h.stopRequested]
      exact h.beginTick _ _
    | engine more =>
      obtain ⟨u, w, hu, hw, huw⟩ := h.engineStep
      exact ⟨_, _, step_engine_of_next hsched hphase hu, step_engine_of_next hsched' (h.phase.trans hphase) hw,
        huw.endCycle more⟩
    | tickEnd =>
      refine ⟨_, _, step_tickEnd hsched hphase, step_tickEnd hsched' (h.phase.trans hphase), ?_⟩
      rw [h.ticks]
      exact h.endTick _

/-- Settles O51: `Alike` is a congruence of every operation a step is made of, since each reads only what alike states
share. -/
theorem unreadableStateIsNeverObserved : Obligations.UnreadableStateIsNeverObserved := by
  intro s t s' h hstep
  obtain ⟨u, t', hu, ht', halike⟩ := h.step
  obtain rfl : u = s' := by rw [hstep] at hu; cases hu; rfl
  exact ⟨t', ht', halike⟩

end Sys2Proof.Machine

/-! PROOFS. Frames of the operations, put together by transitivity. -/

namespace Sys2Proof.Machine

/-! ### Frames in sequence -/

theorem SamePart.trans {s t u : State} {p : Part} (h : SamePart s t p) (h' : SamePart t u p) : SamePart s u p := by
  cases p with
  | regs => exact fun r => (h' r).trans (h r)
  | keys => exact fun k => (h' k).trans (h k)
  | mem => exact fun a => (h' a).trans (h a)
  | stack => exact ⟨h'.1.trans h.1, fun k => (h'.2 k).trans (h.2 k)⟩
  | display => exact ⟨h'.1.trans h.1, fun r c => (h'.2 r c).trans (h.2 r c)⟩
  | fault => exact ⟨h'.1.trans h.1, h'.2.1.trans h.2.1, h'.2.2.1.trans h.2.2.1, h'.2.2.2.trans h.2.2.2⟩
  | idx | pc | dt | st | sched | phase | draws | ticks | events => exact Eq.trans h' h

/-- What two operations leave alone one after the other. -/
theorem KeepsExcept.trans {ps qs : List Part} {s t u : State} (h : KeepsExcept ps s t) (h' : KeepsExcept qs t u) :
    KeepsExcept (ps ++ qs) s u := fun p hp =>
  (h p fun hm => hp (List.mem_append_left qs hm)).trans (h' p fun hm => hp (List.mem_append_right ps hm))

/-! ### The operations on one part -/

theorem keepsExcept_advance (s : State) : KeepsExcept [.pc] s s.advance := keepsExcept_jumpTo s _

section
variable (s : State)

theorem keepsExcept_setV (v : Vector Byte 16) : KeepsExcept [.regs] s { s with v := v } := by
  simp [keepsExcept_iff, SamePart, State.keyPressed, State.readByte]

theorem keepsExcept_setDisplay (f : Framebuffer) : KeepsExcept [.display] s (s.setDisplay f) := by
  simp [keepsExcept_iff, SamePart, State.reg, State.keyPressed, State.readByte]

theorem keepsExcept_emit (e : Event) : KeepsExcept [.events] s (s.emit e) := by
  simp [keepsExcept_iff, SamePart, State.reg, State.keyPressed, State.readByte]

theorem keepsExcept_raise (c : Cause) (a : Word) : KeepsExcept [.fault] s (s.raise c a) := by
  simp [keepsExcept_iff, SamePart, State.reg, State.keyPressed, State.readByte]

theorem keepsExcept_setMem (m : Memory) : KeepsExcept [.mem] s { s with mem := m } := by
  simp [keepsExcept_iff, SamePart, State.reg, State.keyPressed]

theorem keepsExcept_setStack (st : Vector Word 16) (sp : Fin 17) :
    KeepsExcept [.stack] s { s with stack := st, sp := sp } := by
  simp [keepsExcept_iff, SamePart, State.reg, State.keyPressed, State.readByte]

theorem keepsExcept_setDraws (n : Nat) : KeepsExcept [.draws] s { s with draws := n } := by
  simp [keepsExcept_iff, SamePart, State.reg, State.keyPressed, State.readByte]

theorem keepsExcept_setPhase (p : Phase) : KeepsExcept [.phase] s { s with phase := p } := by
  simp [keepsExcept_iff, SamePart, State.reg, State.keyPressed, State.readByte]

theorem keepsExcept_setSched (c : SchedState) : KeepsExcept [.sched] s { s with sched := c } := by
  simp [keepsExcept_iff, SamePart, State.reg, State.keyPressed, State.readByte]

theorem keepsExcept_decTimers : KeepsExcept [.dt, .st] s s.decTimers := by
  simp [keepsExcept_iff, SamePart, State.reg, State.keyPressed, State.readByte]

end

end Sys2Proof.Machine

/-! PROOFS. Calls, returns, the offset jump and the key skips (40_control_flow.md R120 to R123, 44_keypad_timers.md R200,
R201). -/

namespace Sys2Proof.Machine

/-! ### Calls and returns -/

theorem keepsExcept_setStack_jumpTo (s : State) (a : Word) (st : Vector Word 16) (sp : Fin 17) :
    KeepsExcept [.pc, .stack] s { s with pc := a, stack := st, sp := sp } :=
  (keepsExcept_jumpTo s a).trans (keepsExcept_setStack (s.jumpTo a) st sp)

/-- A return with a live entry (40_control_flow.md R120). -/
theorem exec_ret_of_pos {s : State} (h : 0 < s.sp.val) :
    exec .ret s = .next { s with pc := s.stack[s.sp.val - 1], sp := ⟨s.sp.val - 1, by omega⟩ } := by
  rcases exec_ret_cases s with ⟨hempty, -⟩ | ⟨_, e⟩
  · omega
  · exact e

/-- A call with room on the stack (40_control_flow.md R122). -/
theorem exec_call_of_lt (nnn : BitVec 12) {s : State} (h : s.sp.val < 16) : exec (.call nnn) s = .next { s with
    pc := addrImm nnn, stack := s.stack.set s.sp.val (s.pc + 2), sp := ⟨s.sp.val + 1, by omega⟩ } := by
  rcases exec_call_cases nnn s with ⟨hfull, -⟩ | ⟨_, e⟩
  · omega
  · exact e

/-- Settles O17: the popped entry is the top one, and a return writes no entry. -/
theorem returnPopsTheTopEntry : Obligations.ReturnPopsTheTopEntry := by
  intro s k hk
  have hpos : 0 < s.sp.val := by omega
  refine ⟨_, exec_ret_of_pos hpos, ?_, ?_, fun _ _ => rfl, keepsExcept_setStack_jumpTo s _ s.stack _⟩
  · simp [hk]
  · simp [hk]

/-- Settles O18: a call writes the entry at `SP` alone. -/
theorem callPushesTheNextAddress : Obligations.CallPushesTheNextAddress := by
  intro s nnn k hk
  have hlt : s.sp.val < 16 := by omega
  refine ⟨_, exec_call_of_lt nnn hlt, toNat_addrImm nnn, ?_, ?_, fun j hj => ?_, keepsExcept_setStack_jumpTo s _ _ _⟩
  · simp [hk]
  · simp [hk]
  · have hne : s.sp.val ≠ j.val := fun he => hj (Fin.ext (by omega))
    simp [Vector.getElem_set_ne, hne]

/-- Settles O19: the return pops the entry the call pushed, and the entries below it are not written. -/
theorem callThenReturnComesBack : Obligations.CallThenReturnComesBack := by
  intro s nnn hlt
  refine ⟨_, _, exec_call_of_lt nnn hlt, exec_ret_of_pos (Nat.succ_pos _), ?_, ?_, fun j hj => ?_, ?_⟩
  · simp
  · simp
  · have hne : s.sp.val ≠ j.val := by omega
    simp [Vector.getElem_set_ne, hne]
  · exact keepsExcept_setStack_jumpTo s _ _ _

/-! ### The offset jump -/

/-- The sum of a 12-bit address and a byte does not wrap at 16 bits (40_control_flow.md R123). -/
theorem toNat_offsetTarget (s : State) (nnn : BitVec 12) :
    (s.offsetTarget nnn).toNat = nnn.toNat + (s.reg 0).toNat := by
  have hV : ((s.reg 0).setWidth 16).toNat = (s.reg 0).toNat := BitVec.toNat_setWidth_of_le (by decide)
  rw [State.offsetTarget, BitVec.toNat_add, toNat_addrImm, hV]
  omega

/-- Settles O21: the instruction answers a jump to the whole sum. -/
theorem offsetJumpKeepsTheWholeSum : Obligations.OffsetJumpKeepsTheWholeSum := by
  intro s nnn
  refine ⟨_, exec_jpV0 nnn s, toNat_offsetTarget s nnn, ?_, keepsExcept_jumpTo s _⟩
  rw [jumpTo_pc, toNat_offsetTarget]
  omega

/-! ### The key skips -/

/-- Settles O23: each of the two answers a skip (`exec_skip`) on the latched key, or on its negation. -/
theorem keySkipsReadTheLatch : Obligations.KeySkipsReadTheLatch := by
  intro s x k hk
  have hkey : ∀ h : (s.reg x).toNat < 16, (⟨_, h⟩ : Fin 16) = k := fun _ => Fin.ext hk
  constructor
  · rcases exec_skp_cases x s with ⟨hbad, -⟩ | ⟨_, e⟩
    · omega
    · exact exec_skip e (by rw [hkey])
  · rcases exec_sknp_cases x s with ⟨hbad, -⟩ | ⟨_, e⟩
    · omega
    · exact exec_skip e (by rw [hkey, Bool.not_eq_true'])

end Sys2Proof.Machine

/-! PROOFS. Loads, arithmetic and logic (41_load_alu.md R141 to R153). -/

namespace Sys2Proof.Machine

/-! ### Bytes as numbers -/

theorem byte_add_eq (a b : Byte) : a + b = BitVec.ofNat 8 ((a.toNat + b.toNat) % 256) :=
  BitVec.eq_of_toNat_eq (by rw [BitVec.toNat_add, BitVec.toNat_ofNat]; omega)

theorem byte_sub_eq (a b : Byte) : a - b = BitVec.ofNat 8 ((a.toNat + 256 - b.toNat) % 256) :=
  BitVec.eq_of_toNat_eq (by rw [BitVec.toNat_sub, BitVec.toNat_ofNat]; omega)

theorem byte_ushiftRight_one_eq (a : Byte) : a >>> 1 = BitVec.ofNat 8 (a.toNat / 2) :=
  BitVec.eq_of_toNat_eq (by rw [BitVec.toNat_ushiftRight, BitVec.toNat_ofNat, Nat.shiftRight_one]; omega)

theorem byte_shiftLeft_one_eq (a : Byte) : a <<< 1 = BitVec.ofNat 8 (a.toNat * 2 % 256) :=
  BitVec.eq_of_toNat_eq (by rw [BitVec.toNat_shiftLeft, BitVec.toNat_ofNat, Nat.shiftLeft_eq]; omega)

theorem lowBitFlag_iff (a : Byte) : lowBitFlag a = true ↔ a.toNat % 2 = 1 := by
  rw [lowBitFlag, BitVec.getLsbD, Nat.testBit_zero, decide_eq_true_iff]

/-- The most significant bit is set from 128 on. -/
theorem highBitFlag_iff (a : Byte) : highBitFlag a = true ↔ a.toNat ≥ 128 := by
  rw [highBitFlag, BitVec.getLsbD, Nat.testBit_eq_decide_div_mod_eq, decide_eq_true_iff]
  omega

/-! ### The writes without a flag -/

/-- Settles O25: one register write of the sum and the advance. -/
theorem addImmediateWrapsWithoutFlag : Obligations.AddImmediateWrapsWithoutFlag := by
  intro s x kk
  rw [← byte_add_eq]
  exact ⟨_, exec_addImm x kk s, regResult_setReg_advance s x _⟩

/-- Settles O26: one register write and the advance for each; the three operations act bit by bit. -/
theorem copyAndBitwiseWithoutFlag : Obligations.CopyAndBitwiseWithoutFlag := by
  intro s x y
  exact ⟨⟨_, exec_ldReg x y s, regResult_setReg_advance s x _⟩,
    ⟨_, _, exec_orReg x y s, regResult_setReg_advance s x _, fun _ => BitVec.getLsbD_or⟩,
    ⟨_, _, exec_andReg x y s, regResult_setReg_advance s x _, fun _ => BitVec.getLsbD_and⟩,
    ⟨_, _, exec_xorReg x y s, regResult_setReg_advance s x _, fun _ => BitVec.getLsbD_xor⟩⟩

/-! ### The writes with a flag -/

theorem keepsExcept_writeFlagged (s : State) (x : Reg) (f : Bool) (b : Byte) :
    KeepsExcept [.regs, .pc] s (s.writeFlagged x f b) :=
  (keepsExcept_setV s _).trans (keepsExcept_advance ((s.setFlag f).setReg x b))

/-- Flag first, result second: with `x = 15` the result stays (41_load_alu.md R146). -/
theorem flaggedResult_writeFlagged (s : State) (x : Reg) {f : Bool} {p : Prop} (b : Byte) (hf : f = true ↔ p) :
    FlaggedResult s (s.writeFlagged x f b) x p b where
  dest := by rw [reg_writeFlagged, if_pos rfl]
  flag_set hx hp := by rw [reg_writeFlagged, if_neg hx.symm, if_pos rfl, hf.mpr hp]; rfl
  flag_clear hx hp := by
    rw [reg_writeFlagged, if_neg hx.symm, if_pos rfl, Bool.eq_false_iff.mpr fun h => hp (hf.mp h)]; rfl
  others r hx hVF := by rw [reg_writeFlagged, if_neg hx, if_neg hVF]
  pc := writeFlagged_pc s x f b
  frame := keepsExcept_writeFlagged s x f b

/-- Settles O27: the flag is the carry out of the sum. -/
theorem addSetsCarry : Obligations.AddSetsCarry := by
  intro s x y
  rw [← byte_add_eq]
  exact ⟨_, exec_addReg x y s, flaggedResult_writeFlagged s x _ decide_eq_true_iff⟩

/-- Settles O28: the flag is the comparison of the operands in the order of the difference. -/
theorem subtractSetsNotBorrow : Obligations.SubtractSetsNotBorrow := by
  intro s x y
  rw [← byte_sub_eq, ← byte_sub_eq]
  exact ⟨⟨_, exec_subReg x y s, flaggedResult_writeFlagged s x _ decide_eq_true_iff⟩,
    ⟨_, exec_subn x y s, flaggedResult_writeFlagged s x _ decide_eq_true_iff⟩⟩

/-- Settles O29: the flag is the bit the shift moves out. -/
theorem shiftsMoveOneBitIntoVF : Obligations.ShiftsMoveOneBitIntoVF := by
  intro s x y
  rw [← byte_ushiftRight_one_eq, ← byte_shiftLeft_one_eq]
  exact ⟨⟨_, exec_shr x y s, flaggedResult_writeFlagged s x _ (lowBitFlag_iff _)⟩,
    ⟨_, exec_shl x y s, flaggedResult_writeFlagged s x _ (highBitFlag_iff _)⟩⟩

/-! ### The random byte -/

theorem keepsExcept_rnd (s : State) (x : Reg) (b kk : Byte) :
    KeepsExcept [.regs, .pc, .draws] s ({ s with draws := s.draws + 1 }.storeMasked x b kk) :=
  (keepsExcept_setReg_advance s x (b &&& kk)).trans (keepsExcept_setDraws (s.setReg x (b &&& kk)).advance _)

/-- Settles O30: after the draw one register write, whatever the byte is. -/
theorem randomByteUnderMask : Obligations.RandomByteUnderMask := by
  intro s x kk
  have hres := regResult_setReg_advance { s with draws := s.draws + 1 } x (Config.randByte s.draws &&& kk)
  refine ⟨_, exec_rnd x kk s, rfl, fun k => ?_, hres.others, rfl, keepsExcept_rnd s x _ kk⟩
  exact (congrArg (BitVec.getLsbD · k) hres.dest).trans BitVec.getLsbD_and

end Sys2Proof.Machine

/-! PROOFS. Index arithmetic, and the transfers between registers and memory (42_index_memory.md R161 to R166). -/

namespace Sys2Proof.Machine

/-! ### Writing `I` -/

theorem toNat_indexSum (s : State) (x : Reg) : (s.indexSum x).toNat = (s.idx.toNat + (s.reg x).toNat) % 4096 := by
  rw [State.indexSum, BitVec.toNat_ofNat]
  exact Nat.mod_eq_of_lt (by simp only [Config.memSize]; omega)

/-- `FONT_BASE` is at most 432, so the sum does not wrap at 16 bits. -/
theorem toNat_glyphAddr (s : State) (x : Reg) :
    (s.glyphAddr x).toNat = Config.fontBase.val + 5 * (s.reg x).toNat := by
  have := Config.fontBase.isLt
  rw [State.glyphAddr, BitVec.toNat_ofNat]
  exact Nat.mod_eq_of_lt (by simp only [Config.glyphStride]; omega)

/-- Settles O32: one write of `I` and the advance, for every sum. -/
theorem addIndexWrapsAt4096 : Obligations.AddIndexWrapsAt4096 := by
  intro s x
  exact ⟨_, exec_addI x s, toNat_indexSum s x, rfl, keepsExcept_setIdx_advance s _⟩

/-- Settles O33: one write of `I` and the advance, for every font base. -/
theorem fontAddressUsesTheWholeByte : Obligations.FontAddressUsesTheWholeByte := by
  intro s x
  have := Config.fontBase.isLt
  refine ⟨_, exec_ldF x s, toNat_glyphAddr s x, ?_, rfl, keepsExcept_setIdx_advance s _⟩
  rw [advance_idx, setIdx_idx, toNat_glyphAddr]
  omega

/-! ### Storing bytes at `I` -/

/-- A store inside memory (42_index_memory.md R163, R164). -/
theorem storeAtIdx_of_inside {s : State} {bs : List Byte} (h : s.dataAddr + bs.length ≤ 4096) :
    s.storeAtIdx bs = { s with mem := s.mem.writeRange s.dataAddr bs, pc := s.pc + 2 } := by
  rcases storeAtIdx_cases s bs with ⟨-, e⟩ | ⟨hout, -⟩
  · exact e
  · rw [State.dataAddr] at h
    omega

theorem keepsExcept_setMem_advance (s : State) (m : Memory) :
    KeepsExcept [.mem, .pc] s { s with mem := m, pc := s.pc + 2 } :=
  (keepsExcept_setMem s m).trans (keepsExcept_advance { s with mem := m })

/-- A stored byte is read back. -/
theorem readByte_storeAtIdx_inside {s : State} {bs : List Byte} (h : s.dataAddr + bs.length ≤ 4096)
    (hwf : s.mem.wf = true) {j : Nat} (hj : j < bs.length) : (s.storeAtIdx bs).readByte (s.dataAddr + j) = bs[j] := by
  rw [storeAtIdx_of_inside h]
  exact Memory.read_writeRange_inside hwf h hj

/-- No other byte is written. -/
theorem readByte_storeAtIdx_outside {s : State} {bs : List Byte} (h : s.dataAddr + bs.length ≤ 4096) {a : Nat}
    (ha : a < s.dataAddr ∨ s.dataAddr + bs.length ≤ a) : (s.storeAtIdx bs).readByte a = s.readByte a := by
  rw [storeAtIdx_of_inside h]
  exact Memory.read_writeRange_outside _ bs ha

theorem storeAtIdx_pc {s : State} {bs : List Byte} (h : s.dataAddr + bs.length ≤ 4096) :
    (s.storeAtIdx bs).pc = s.pc + 2 := by
  rw [storeAtIdx_of_inside h]

theorem keepsExcept_storeAtIdx {s : State} {bs : List Byte} (h : s.dataAddr + bs.length ≤ 4096) :
    KeepsExcept [.mem, .pc] s (s.storeAtIdx bs) := by
  rw [storeAtIdx_of_inside h]
  exact keepsExcept_setMem_advance s _

/-- Settles O34: the three bytes of the store are the digits. -/
theorem decimalDigitsStoredAtIndex : Obligations.DecimalDigitsStoredAtIndex := by
  intro s x h
  have hbyte := (s.reg x).isLt
  refine ⟨_, exec_ldB x s, fun hwf => ⟨?_, ?_, ?_⟩, fun a ha => readByte_storeAtIdx_outside h ha, storeAtIdx_pc h,
    keepsExcept_storeAtIdx h⟩
  · rw [← Nat.add_zero s.dataAddr, readByte_storeAtIdx_inside h hwf (j := 0) (by simp)]
    exact Nat.mod_eq_of_lt (by omega)
  · rw [readByte_storeAtIdx_inside h hwf (j := 1) (by simp)]
    exact Nat.mod_eq_of_lt (by omega)
  · rw [readByte_storeAtIdx_inside h hwf (j := 2) (by simp)]
    exact Nat.mod_eq_of_lt (by omega)

/-- A stored register is read back. -/
theorem readByte_storeAtIdx_regsUpTo {s : State} {x : Reg} (h : s.dataAddr + x.val + 1 ≤ 4096) (hwf : s.mem.wf = true)
    {r : Reg} (hr : r ≤ x) : (s.storeAtIdx (s.regsUpTo x)).readByte (s.dataAddr + r.val) = s.reg r := by
  have hlen : r.val < (s.regsUpTo x).length := by rw [length_regsUpTo]; exact Nat.lt_succ_of_le hr
  rw [readByte_storeAtIdx_inside (by rw [length_regsUpTo]; exact h) hwf hlen, getElem_regsUpTo]

/-- Settles O35: the bytes of the store are the registers. -/
theorem registersStoredAtIndex : Obligations.RegistersStoredAtIndex := by
  intro s x h
  have hlen : s.dataAddr + (s.regsUpTo x).length ≤ 4096 := by rw [length_regsUpTo]; exact h
  refine ⟨_, exec_stRegs x s, fun hwf r hr => readByte_storeAtIdx_regsUpTo h hwf hr, fun a ha => ?_, storeAtIdx_pc hlen,
    keepsExcept_storeAtIdx hlen⟩
  exact readByte_storeAtIdx_outside hlen (by rw [length_regsUpTo]; exact ha)

/-! ### Loading registers from `I` -/

/-- A load inside memory (42_index_memory.md R165). -/
theorem exec_ldRegs_of_inside {s : State} {x : Reg} (h : s.dataAddr + x.val + 1 ≤ 4096) :
    exec (.ldRegs x) s = .next (s.loadRegs (s.mem.readRange s.dataAddr (x.val + 1))).advance := by
  rcases exec_ldRegs_cases x s with ⟨hout, -⟩ | ⟨-, e⟩
  · rw [State.dataAddr] at h
    omega
  · exact e

/-- Every register after a load: from memory up to `Vx`, as before above it. -/
theorem reg_loadRegs_readRange (s : State) (x r : Reg) (a : Nat) :
    (s.loadRegs (s.mem.readRange a (x.val + 1))).advance.reg r = if r ≤ x then s.readByte (a + r.val) else s.reg r := by
  rw [reg_of_v (advance_v _), reg_loadRegs, Memory.getD_readRange]
  simp only [Nat.lt_succ_iff, Fin.le_def, State.readByte]

theorem keepsExcept_loadRegs_advance (s : State) (bs : List Byte) :
    KeepsExcept [.regs, .pc] s (s.loadRegs bs).advance :=
  (keepsExcept_setV s _).trans (keepsExcept_advance (s.loadRegs bs))

/-- Settles O36: register by register (`reg_loadRegs_readRange`). -/
theorem registersLoadedFromIndex : Obligations.RegistersLoadedFromIndex := by
  intro s x h
  refine ⟨_, exec_ldRegs_of_inside h, fun r hr => ?_, fun r hr => ?_, ?_, keepsExcept_loadRegs_advance s _⟩
  · rw [reg_loadRegs_readRange, if_pos hr]
  · rw [reg_loadRegs_readRange, if_neg (not_le.mpr hr)]
  · rw [advance_pc, loadRegs_pc]

/-! ### Stores and what reads them -/

/-- Settles O37: the store and the load address the same bytes, since a store keeps `I`. -/
theorem storeThenLoadRestoresRegisters : Obligations.StoreThenLoadRestoresRegisters := by
  intro s x v h hwf
  have hlen : s.dataAddr + (s.regsUpTo x).length ≤ 4096 := by rw [length_regsUpTo]; exact h
  have hidx : (s.storeAtIdx (s.regsUpTo x)).idx = s.idx := keepsExcept_storeAtIdx hlen .idx (by decide)
  have haddr : { s.storeAtIdx (s.regsUpTo x) with v := v }.dataAddr = s.dataAddr := congrArg BitVec.toNat hidx
  refine ⟨_, _, exec_stRegs x s, exec_ldRegs_of_inside (by rw [haddr]; exact h), fun r hr => ?_, fun r hr => ?_, ?_⟩
  · rw [reg_loadRegs_readRange, if_pos hr, haddr]
    exact readByte_storeAtIdx_regsUpTo h hwf hr
  · rw [reg_loadRegs_readRange, if_neg (not_le.mpr hr)]
    rfl
  · rw [advance_idx, loadRegs_idx]
    exact hidx

/-- Settles O38: the new `PC` is `I`, where the first two bytes of the store are `V0` and `V1`. -/
theorem storedCodeIsFetchedNext : Obligations.StoredCodeIsFetchedNext := by
  intro s x hwf hx hidx h
  have hlen : s.dataAddr + (s.regsUpTo x).length ≤ 4096 := by rw [length_regsUpTo]; exact h
  have hpc : (s.storeAtIdx (s.regsUpTo x)).pc.toNat = s.dataAddr := by
    rw [storeAtIdx_pc hlen, BitVec.toNat_add, State.dataAddr, hidx]
    exact Nat.mod_eq_of_lt (hidx.symm.trans_lt s.idx.isLt)
  refine ⟨_, exec_stRegs x s, ?_⟩
  have h₀ := readByte_storeAtIdx_regsUpTo h hwf (r := 0) (Fin.zero_le x)
  have h₁ := readByte_storeAtIdx_regsUpTo h hwf (r := 1) hx
  rw [State.fetchWord, hpc]
  exact congrArg₂ wordOfBytes h₀ h₁

end Sys2Proof.Machine

/-! PROOFS. The cleared screen, the key wait and the unknown word (43_display.md R180, 44_keypad_timers.md R204, R205,
45_unknown_opcode.md R220, R221). -/

namespace Sys2Proof.Machine

theorem keepsExcept_setDisplay_advance (s : State) (f : Framebuffer) :
    KeepsExcept [.display, .pc] s (s.setDisplay f).advance :=
  (keepsExcept_setDisplay s f).trans (keepsExcept_advance (s.setDisplay f))

/-- Settles O39: the framebuffer of the answer is the dark one. -/
theorem clearScreenClearsEveryPixel : Obligations.ClearScreenClearsEveryPixel := by
  intro s
  exact ⟨_, exec_cls s, pixel_clear, rfl, rfl, keepsExcept_setDisplay_advance s _⟩

/-- Settles O44: the two cases of `exec_ldVxK_cases`; two lowest pressed keys are the same key. -/
theorem keyWaitTakesTheLowestKey : Obligations.KeyWaitTakesTheLowestKey := by
  intro s x
  rcases exec_ldVxK_cases x s with ⟨hnone, e⟩ | ⟨k, hk, hlow, e⟩
  · refine ⟨fun _ => e, fun k hk => ?_⟩
    rw [hnone k] at hk
    cases hk
  · refine ⟨fun hnone => ?_, fun k' hk' hlow' => ?_⟩
    · rw [hnone k] at hk
      cases hk
    · have hle : ¬ k' < k := fun hlt => by rw [hlow k' hlt] at hk'; cases hk'
      have hge : ¬ k < k' := fun hlt => by rw [hlow' k hlt] at hk; cases hk
      obtain rfl : k' = k := le_antisymm (not_lt.mp hge) (not_lt.mp hle)
      exact ⟨_, e, regResult_setReg_advance s x _⟩

theorem keepsExcept_emit_advance (s : State) (e : Event) : KeepsExcept [.pc, .events] s (s.emit e).advance :=
  (keepsExcept_advance s).trans (keepsExcept_emit s.advance e)

/-- Settles O45: the report and the advance. -/
theorem unknownWordIsReportedAndSkipped : Obligations.UnknownWordIsReportedAndSkipped := by
  intro s op
  exact ⟨_, exec_dw op s, rfl, rfl, keepsExcept_emit_advance s _⟩

end Sys2Proof.Machine

/-! PROOFS. Drawing (43_display.md R181 to R184). -/

namespace Sys2Proof.Machine

/-! ### The answer of a draw -/

/-- The state after a sprite is drawn (43_display.md R182). -/
def State.drawn (s : State) (rows : List Byte) (x0 y0 : Byte) : State :=
  ((s.setDisplay (drawSprite s.fb rows x0 y0).1).setFlag (drawSprite s.fb rows x0 y0).2).advance

/-- The rows a draw reads, `MEM[I]` on. -/
def State.spriteRows (s : State) (n : Fin 16) : List Byte := s.mem.readRange s.dataAddr n.val

/-- Everything `Dxyn` can do, the drawn state by name. -/
theorem exec_drw_faults_or_draws (x y : Reg) (n : Fin 16) (s : State) :
    (4096 < s.dataAddr + n.val ∧ exec (.drw x y n) s = .next (s.raise .memRange s.idx)) ∨
    (s.dataAddr + n.val ≤ 4096 ∧
      exec (.drw x y n) s = .next (s.drawn (s.spriteRows n) (s.reg x) (s.reg y))) := by
  rcases exec_drw_cases x y n s with hfault | ⟨h, _, rfl, e⟩
  · exact .inl hfault
  · exact .inr ⟨h, e⟩

/-- A draw inside memory. -/
theorem exec_drw_of_inside {s : State} {n : Fin 16} (x y : Reg) (h : s.dataAddr + n.val ≤ 4096) :
    exec (.drw x y n) s = .next (s.drawn (s.spriteRows n) (s.reg x) (s.reg y)) := by
  rcases exec_drw_faults_or_draws x y n s with ⟨hout, -⟩ | ⟨-, e⟩
  · omega
  · exact e

/-- A sprite has at most 15 rows, fewer than the screen. -/
theorem length_spriteRows_le (s : State) (n : Fin 16) : (s.spriteRows n).length ≤ 32 := by
  rw [State.spriteRows, Memory.length_readRange]
  omega

theorem keepsExcept_drawn (s : State) (rows : List Byte) (x0 y0 : Byte) :
    KeepsExcept [.regs, .display, .pc] s (s.drawn rows x0 y0) :=
  ((keepsExcept_setDisplay s _).trans (keepsExcept_setReg_advance (s.setDisplay _) VF _)).mono (by decide)

theorem reg_drawn_of_ne (s : State) (rows : List Byte) (x0 y0 : Byte) {r : Reg} (hr : r ≠ VF) :
    (s.drawn rows x0 y0).reg r = s.reg r :=
  (reg_setReg_advance (s.setDisplay _) VF r _).trans (if_neg hr)

theorem reg_drawn_VF (s : State) (rows : List Byte) (x0 y0 : Byte) :
    (s.drawn rows x0 y0).reg VF = flagByte (drawSprite s.fb rows x0 y0).2 :=
  (reg_setReg_advance (s.setDisplay _) VF VF _).trans (if_pos rfl)

theorem pixel_drawn (s : State) {rows : List Byte} (x0 y0 : Byte) (h : rows.length ≤ 32) (r : Fin 32) (c : Fin 64) :
    (s.drawn rows x0 y0).fb.pixel r c = (s.fb.pixel r c ^^ spritePixel rows x0 y0 r c) :=
  drawSprite_pixel s.fb x0 y0 h r c

theorem flagByte_eq_one_iff (f : Bool) : flagByte f = 1 ↔ f = true := by cases f <;> decide

theorem flagByte_eq_zero_iff (f : Bool) : flagByte f = 0 ↔ ¬ f = true := by cases f <;> decide

/-- The collision as the framebuffers show it: a lit pixel was turned off. -/
theorem drawSprite_collision_iff_turned_off (s : State) {rows : List Byte} (x0 y0 : Byte) (h : rows.length ≤ 32) :
    (drawSprite s.fb rows x0 y0).2 = true ↔
      ∃ r c, s.fb.pixel r c = true ∧ (s.drawn rows x0 y0).fb.pixel r c = false := by
  rw [drawSprite_collision s.fb x0 y0 h]
  refine exists_congr fun r => exists_congr fun c => and_congr_right fun hlit => ?_
  rw [pixel_drawn s x0 y0 h, hlit, Bool.true_xor, Bool.not_eq_false']

/-- Settles O40: every pixel by `pixel_drawn`, the flag by `drawSprite_collision_iff_turned_off`. -/
theorem drawXorsTheSpriteAndReportsCollision : Obligations.DrawXorsTheSpriteAndReportsCollision := by
  intro s x y n h
  have hlen := length_spriteRows_le s n
  have hturned := drawSprite_collision_iff_turned_off s (s.reg x) (s.reg y) hlen
  refine ⟨_, exec_drw_of_inside x y h, pixel_drawn s _ _ hlen, fun hoff => ?_, fun hnone => ?_,
    fun r hr => reg_drawn_of_ne s _ _ _ hr, rfl, rfl, keepsExcept_drawn s _ _ _⟩
  · rw [reg_drawn_VF, flagByte_eq_one_iff, hturned]
    exact hoff
  · rw [reg_drawn_VF, flagByte_eq_zero_iff, hturned]
    exact hnone

/-! ### Drawing twice -/

/-- The second draw finds the same rows and the same corner, since the first one writes no register but `VF`. -/
theorem exec_drw_drawn {s : State} {x y : Reg} {n : Fin 16} (hx : x ≠ VF) (hy : y ≠ VF) (h : s.dataAddr + n.val ≤ 4096)
    (rows : List Byte) (x0 y0 : Byte) : exec (.drw x y n) (s.drawn rows x0 y0) =
      .next ((s.drawn rows x0 y0).drawn (s.spriteRows n) (s.reg x) (s.reg y)) := by
  rw [exec_drw_of_inside (s := s.drawn rows x0 y0) x y h, reg_drawn_of_ne s _ _ _ hx, reg_drawn_of_ne s _ _ _ hy]
  rfl

theorem pixel_drawn_drawn (s : State) {rows : List Byte} (x0 y0 : Byte) (h : rows.length ≤ 32) (r : Fin 32)
    (c : Fin 64) : ((s.drawn rows x0 y0).drawn rows x0 y0).fb.pixel r c = s.fb.pixel r c := by
  rw [pixel_drawn _ x0 y0 h, pixel_drawn s x0 y0 h, Bool.xor_assoc, Bool.xor_self, Bool.xor_false]

/-! ### Where a sprite has pixels -/

/-- A sprite's pixels by row and bit of the sprite (43_display.md R181). -/
theorem spritePixel_iff {rows : List Byte} (x0 y0 : Byte) (h : rows.length ≤ 32) (r : Fin 32) (c : Fin 64) :
    spritePixel rows x0 y0 r c = true ↔ ∃ i < rows.length, r.val = (y0.toNat + i) % 32 ∧
      ∃ bit < 8, c.val = (x0.toNat + bit) % 64 ∧ true = (rows.getD i 0).getLsbD (7 - bit) := by
  rw [← mem_spriteCells_iff_spritePixel x0 y0 h, mem_spriteCells]

theorem drawSprite_clear_pixel {rows : List Byte} (x0 y0 : Byte) (h : rows.length ≤ 32) (r : Fin 32) (c : Fin 64) :
    (drawSprite (Vector.replicate 32 0) rows x0 y0).1.pixel r c = spritePixel rows x0 y0 r c := by
  have hdark : Framebuffer.pixel (Vector.replicate 32 0) r c = false := pixel_clear r c
  rw [drawSprite_pixel _ x0 y0 h, hdark, Bool.false_xor]

theorem exists_bit_of_ne_zero {b : Byte} (h : b ≠ 0) : ∃ bit < 8, true = b.getLsbD (7 - bit) := by
  by_contra hnone
  refine h (BitVec.eq_of_getLsbD_eq fun j hj => ?_)
  have hj' : ¬ true = b.getLsbD (7 - (7 - j)) := fun hset => hnone ⟨7 - j, by omega, hset⟩
  rw [Nat.sub_sub_self (by omega)] at hj'
  simpa using hj'

/-- A row of the screen shows something of a sprite exactly where the sprite's row there has a bit. -/
theorem exists_spritePixel_iff {rows : List Byte} (x0 y0 : Byte) (h : rows.length ≤ 32) (r : Fin 32) :
    (∃ c, spritePixel rows x0 y0 r c = true) ↔
      ∃ i < rows.length, r.val = (y0.toNat + i) % 32 ∧ rows.getD i 0 ≠ 0 := by
  constructor
  · rintro ⟨c, hc⟩
    obtain ⟨i, hi, hr, bit, -, -, hset⟩ := (spritePixel_iff x0 y0 h r c).mp hc
    refine ⟨i, hi, hr, fun hzero => ?_⟩
    rw [hzero] at hset
    exact Bool.false_ne_true (BitVec.getLsbD_zero.symm.trans hset.symm)
  · rintro ⟨i, hi, hr, hne⟩
    obtain ⟨bit, hbit, hset⟩ := exists_bit_of_ne_zero hne
    exact ⟨Fin.ofNat 64 (x0.toNat + bit), (spritePixel_iff x0 y0 h r _).mpr ⟨i, hi, hr, bit, hbit, rfl, hset⟩⟩

/-! ### The screen's edges -/

/-- A full row at column 60 shows in the last four and the first four columns. -/
theorem drawSprite_wraps_columns (y0 : Byte) (r : Fin 32) (c : Fin 64) :
    (drawSprite (Vector.replicate 32 0) [0xFF] 60 y0).1.pixel r c =
      decide (r.val = y0.toNat % 32 ∧ (60 ≤ c.val ∨ c.val < 4)) := by
  have hfull : ∀ bit < 8, true = (0xFF : Byte).getLsbD (7 - bit) := by decide
  have h60 : (60 : Byte).toNat = 60 := rfl
  rw [drawSprite_clear_pixel 60 y0 (by decide), Bool.eq_iff_iff, spritePixel_iff 60 y0 (by decide), decide_eq_true_iff,
    h60]
  constructor
  · rintro ⟨i, hi, hr, bit, hbit, hc, -⟩
    obtain rfl : i = 0 := Nat.lt_one_iff.mp hi
    exact ⟨hr, by omega⟩
  · rintro ⟨hr, hc⟩
    exact ⟨0, Nat.one_pos, hr, (c.val + 4) % 64, by omega, by omega, hfull _ (by omega)⟩

/-- Four rows from row 30 on show in the last two and the first two rows. -/
theorem drawSprite_wraps_rows {b₀ b₁ b₂ b₃ : Byte} (x0 : Byte) (r : Fin 32) (h₀ : b₀ ≠ 0) (h₁ : b₁ ≠ 0) (h₂ : b₂ ≠ 0)
    (h₃ : b₃ ≠ 0) : (∃ c, (drawSprite (Vector.replicate 32 0) [b₀, b₁, b₂, b₃] x0 30).1.pixel r c = true) ↔
      r = 30 ∨ r = 31 ∨ r = 0 ∨ r = 1 := by
  have hlen : [b₀, b₁, b₂, b₃].length ≤ 32 := by simp
  have hne : ∀ i < 4, [b₀, b₁, b₂, b₃].getD i 0 ≠ 0
    | 0, _ => h₀ | 1, _ => h₁ | 2, _ => h₂ | 3, _ => h₃
  have h30 : (30 : Byte).toNat = 30 := rfl
  simp only [drawSprite_clear_pixel x0 30 hlen, exists_spritePixel_iff x0 30 hlen, h30, Fin.ext_iff]
  constructor
  · rintro ⟨i, hi, hr, -⟩
    have hi' : i < 4 := hi
    omega
  · intro hr
    exact ⟨(r.val + 2) % 32, by simp; omega, by omega, hne _ (by omega)⟩

/-- Settles O41: XOR with the same sprite twice is nothing, and the edges wrap by the place of a sprite's bits. -/
theorem drawingTwiceErases : Obligations.DrawingTwiceErases := by
  refine ⟨fun s x y n hx hy h => ?_, drawSprite_wraps_columns,
    fun b₀ b₁ b₂ b₃ x0 r h₀ h₁ h₂ h₃ => drawSprite_wraps_rows x0 r h₀ h₁ h₂ h₃⟩
  have hlen := length_spriteRows_le s n
  refine ⟨_, _, exec_drw_of_inside x y h, exec_drw_drawn hx hy h _ _ _, pixel_drawn_drawn s _ _ hlen, ?_⟩
  rw [reg_drawn_VF, flagByte_eq_one_iff, drawSprite_collision_iff_turned_off _ _ _ hlen]
  refine exists_congr fun r => exists_congr fun c => and_congr_right fun hlit => ?_
  rw [hlit, ne_comm]
  exact Bool.eq_false_iff

end Sys2Proof.Machine

/-! PROOFS. Everything an instruction can do: its own fault of the table, or a completion that keeps to its footprint and
leaves `PC` where its row of the `PC` table says (60_exceptions.md R261, R262, 10_state.md R22 to R38, 40_control_flow.md
R129). -/

namespace Sys2Proof.Machine

/-! ### Completions -/

/-- An instruction that may change the parts `ps`, and of the registers those with `w`, has led from `s` to `t` with `PC` at
`pc`. `mem` says of the list what a frame says of single bytes only: no write, or one inside memory. -/
structure Completes (ps : List Part) (w : Reg → Bool) (pc : Nat) (s t : State) : Prop where
  frame : KeepsExcept ps s t
  regs : ∀ r, w r = false → t.reg r = s.reg r
  pc : s.pc.toNat + 2 ≤ 4096 → t.pc.toNat = pc
  mem : t.mem = s.mem ∨ ∃ bs, s.idx.toNat + bs.length ≤ 4096 ∧ t.mem = s.mem.writeRange s.idx.toNat bs

section
variable (s : State)

/-- At a fetchable `PC` no advance wraps at 16 bits. -/
theorem toNat_pc_add {d : Word} (hd : d.toNat ≤ 4) (hpc : s.pc.toNat + 2 ≤ 4096) :
    (s.pc + d).toNat = s.pc.toNat + d.toNat := by
  rw [BitVec.toNat_add]
  exact Nat.mod_eq_of_lt (by omega)

theorem toNat_pc_add_two (hpc : s.pc.toNat + 2 ≤ 4096) : (s.pc + 2).toNat = s.pc.toNat + 2 :=
  toNat_pc_add s (by decide) hpc

theorem completes_jumpTo (w : Reg → Bool) {a : Word} {pc : Nat} (ha : s.pc.toNat + 2 ≤ 4096 → a.toNat = pc) :
    Completes [.pc] w pc s (s.jumpTo a) where
  frame := keepsExcept_jumpTo s a
  regs _ _ := rfl
  pc := ha
  mem := .inl rfl

/-- A skip on the test of `p`, with the two distances of the `PC` table. -/
theorem completes_skipIf (w : Reg → Bool) {c : Bool} {d : Nat} (hd : (if c then 4 else 2) = d) :
    Completes [.pc] w (s.pc.toNat + d) s (s.skipIf c) := by
  refine completes_jumpTo s w fun hpc => ?_
  subst hd
  cases c <;> exact toNat_pc_add s (by decide) hpc

theorem completes_setReg_advance (x : Reg) (b : Byte) :
    Completes [.pc, .regs] (fun r => r == x) (s.pc.toNat + 2) s (s.setReg x b).advance where
  frame := (keepsExcept_setReg_advance s x b).mono (by decide)
  regs r hr := (reg_setReg_advance s x r b).trans (if_neg (ne_of_beq_false hr))
  pc := toNat_pc_add_two s
  mem := .inl rfl

theorem completes_writeFlagged (x : Reg) (f : Bool) (b : Byte) :
    Completes [.pc, .regs] (fun r => r == x || r == VF) (s.pc.toNat + 2) s (s.writeFlagged x f b) where
  frame := (keepsExcept_writeFlagged s x f b).mono (by decide)
  regs r hr := by
    obtain ⟨hx, hVF⟩ := Bool.or_eq_false_iff.mp hr
    rw [reg_writeFlagged, if_neg (ne_of_beq_false hx), if_neg (ne_of_beq_false hVF)]
  pc := toNat_pc_add_two s
  mem := .inl rfl

theorem completes_rnd (x : Reg) (b kk : Byte) : Completes [.pc, .regs, .draws] (fun r => r == x) (s.pc.toNat + 2) s
    ({ s with draws := s.draws + 1 }.storeMasked x b kk) where
  frame := (keepsExcept_rnd s x b kk).mono (by decide)
  regs := (completes_setReg_advance s x (b &&& kk)).regs
  pc := toNat_pc_add_two s
  mem := .inl rfl

theorem completes_loadRegs (x : Reg) : Completes [.pc, .regs] (fun r => decide (r.val ≤ x.val)) (s.pc.toNat + 2) s
    (s.loadRegs (s.mem.readRange s.dataAddr (x.val + 1))).advance where
  frame := (keepsExcept_loadRegs_advance s _).mono (by decide)
  regs r hr := (reg_loadRegs_readRange s x r _).trans (if_neg (of_decide_eq_false hr))
  pc hpc := by
    rw [advance_pc, loadRegs_pc]
    exact toNat_pc_add_two s hpc
  mem := .inl (by rw [advance_mem, loadRegs_mem])

theorem completes_drawn (rows : List Byte) (x0 y0 : Byte) :
    Completes [.pc, .regs, .display] (fun r => r == VF) (s.pc.toNat + 2) s (s.drawn rows x0 y0) where
  frame := (keepsExcept_drawn s rows x0 y0).mono (by decide)
  regs _ hr := reg_drawn_of_ne s rows x0 y0 (ne_of_beq_false hr)
  pc := toNat_pc_add_two s
  mem := .inl rfl

theorem completes_setDisplay_advance (w : Reg → Bool) (f : Framebuffer) :
    Completes [.pc, .display] w (s.pc.toNat + 2) s (s.setDisplay f).advance where
  frame := (keepsExcept_setDisplay_advance s f).mono (by decide)
  regs _ _ := rfl
  pc := toNat_pc_add_two s
  mem := .inl rfl

theorem completes_setIdx_advance (w : Reg → Bool) (a : Word) :
    Completes [.pc, .idx] w (s.pc.toNat + 2) s (s.setIdx a).advance where
  frame := (keepsExcept_setIdx_advance s a).mono (by decide)
  regs _ _ := rfl
  pc := toNat_pc_add_two s
  mem := .inl rfl

theorem completes_setDt_advance (w : Reg → Bool) (d : Byte) :
    Completes [.pc, .dt] w (s.pc.toNat + 2) s { s with dt := d }.advance where
  frame := (keepsExcept_setDt_advance s d).mono (by decide)
  regs _ _ := rfl
  pc := toNat_pc_add_two s
  mem := .inl rfl

theorem completes_setSt_advance (w : Reg → Bool) (d : Byte) :
    Completes [.pc, .st] w (s.pc.toNat + 2) s { s with st := d }.advance where
  frame := (keepsExcept_setSt_advance s d).mono (by decide)
  regs _ _ := rfl
  pc := toNat_pc_add_two s
  mem := .inl rfl

theorem completes_emit_advance (w : Reg → Bool) (e : Event) :
    Completes [.pc, .events] w (s.pc.toNat + 2) s (s.emit e).advance where
  frame := keepsExcept_emit_advance s e
  regs _ _ := rfl
  pc := toNat_pc_add_two s
  mem := .inl rfl

theorem completes_store (w : Reg → Bool) {bs : List Byte} (h : s.idx.toNat + bs.length ≤ 4096) :
    Completes [.pc, .mem] w (s.pc.toNat + 2) s { s with mem := s.mem.writeRange s.idx.toNat bs, pc := s.pc + 2 } where
  frame := (keepsExcept_setMem_advance s _).mono (by decide)
  regs _ _ := rfl
  pc := toNat_pc_add_two s
  mem := .inr ⟨bs, h, rfl⟩

theorem completes_setStack_jumpTo (w : Reg → Bool) {a : Word} {pc : Nat} (ha : a.toNat = pc) (st : Vector Word 16)
    (sp : Fin 17) : Completes [.pc, .stack] w pc s { s with pc := a, stack := st, sp := sp } where
  frame := keepsExcept_setStack_jumpTo s a st sp
  regs _ _ := rfl
  pc _ := ha
  mem := .inl rfl

theorem completes_refl (w : Reg → Bool) (ps : List Part) : Completes ps w s.pc.toNat s s where
  frame := KeepsExcept.refl ps s
  regs _ _ := rfl
  pc _ := rfl
  mem := .inl rfl

end

/-! ### Readings of the `PC` table -/

theorem keys_getD (s : State) (k : Fin 16) : s.keys.toList.getD k.val false = s.keyPressed k := by
  simp [State.keyPressed]

theorem stack_getD (s : State) {j : Nat} (hj : j < 16) : s.stack.toList.getD j 0 = s.stack[j] := by
  simp [hj]

/-! ### The instructions -/

/-- The instruction takes the fault of the table, with its code. -/
def Faults (i : Instr) (s : State) : Prop :=
  ∃ c a, faultOf i s = some (c, a) ∧ c.code = faultCode i ∧ exec i s = .next (s.raise c a)

/-- The instruction takes no fault and completes. -/
def Finishes (i : Instr) (s : State) : Prop :=
  faultOf i s = none ∧ ∃ t, exec i s = .next t ∧ Completes (footprint i) (mayWrite i) (pcAfter i s) s t

theorem exec_faults_or_finishes (i : Instr) (s : State) : Faults i s ∨ Finishes i s := by
  cases i with
  | cls => exact .inr ⟨rfl, _, exec_cls s, completes_setDisplay_advance s _ _⟩
  | ret =>
    rcases exec_ret_cases s with ⟨h, e⟩ | ⟨h, e⟩
    · exact .inl ⟨_, _, if_pos h, rfl, e⟩
    · refine .inr ⟨if_neg (by omega), _, e, completes_setStack_jumpTo s _ ?_ s.stack _⟩
      rw [pcAfter, stack_getD s (by omega)]
  | jp nnn => exact .inr ⟨rfl, _, exec_jp nnn s, completes_jumpTo s _ fun _ => toNat_addrImm nnn⟩
  | call nnn =>
    rcases exec_call_cases nnn s with ⟨h, e⟩ | ⟨h, e⟩
    · exact .inl ⟨_, _, if_pos h, rfl, e⟩
    · exact .inr ⟨if_neg (by omega), _, e, completes_setStack_jumpTo s _ (toNat_addrImm nnn) _ _⟩
  | seImm x kk => exact .inr ⟨rfl, _, exec_seImm x kk s, completes_skipIf s _ (by simp only [beq_iff_eq])⟩
  | sneImm x kk => exact .inr ⟨rfl, _, exec_sneImm x kk s, completes_skipIf s _ (by simp only [bne_iff_ne, ite_not])⟩
  | seReg x y => exact .inr ⟨rfl, _, exec_seReg x y s, completes_skipIf s _ (by simp only [beq_iff_eq])⟩
  | sneReg x y => exact .inr ⟨rfl, _, exec_sneReg x y s, completes_skipIf s _ (by simp only [bne_iff_ne, ite_not])⟩
  | ldImm x kk => exact .inr ⟨rfl, _, exec_ldImm x kk s, completes_setReg_advance s x _⟩
  | addImm x kk => exact .inr ⟨rfl, _, exec_addImm x kk s, completes_setReg_advance s x _⟩
  | ldReg x y => exact .inr ⟨rfl, _, exec_ldReg x y s, completes_setReg_advance s x _⟩
  | orReg x y => exact .inr ⟨rfl, _, exec_orReg x y s, completes_setReg_advance s x _⟩
  | andReg x y => exact .inr ⟨rfl, _, exec_andReg x y s, completes_setReg_advance s x _⟩
  | xorReg x y => exact .inr ⟨rfl, _, exec_xorReg x y s, completes_setReg_advance s x _⟩
  | addReg x y => exact .inr ⟨rfl, _, exec_addReg x y s, completes_writeFlagged s x _ _⟩
  | subReg x y => exact .inr ⟨rfl, _, exec_subReg x y s, completes_writeFlagged s x _ _⟩
  | shr x y => exact .inr ⟨rfl, _, exec_shr x y s, completes_writeFlagged s x _ _⟩
  | subn x y => exact .inr ⟨rfl, _, exec_subn x y s, completes_writeFlagged s x _ _⟩
  | shl x y => exact .inr ⟨rfl, _, exec_shl x y s, completes_writeFlagged s x _ _⟩
  | ldI nnn => exact .inr ⟨rfl, _, exec_ldI nnn s, completes_setIdx_advance s _ _⟩
  | jpV0 nnn => exact .inr ⟨rfl, _, exec_jpV0 nnn s, completes_jumpTo s _ fun _ => toNat_offsetTarget s nnn⟩
  | rnd x kk => exact .inr ⟨rfl, _, exec_rnd x kk s, completes_rnd s x _ kk⟩
  | drw x y n =>
    rcases exec_drw_faults_or_draws x y n s with ⟨h, e⟩ | ⟨h, e⟩
    · exact .inl ⟨_, _, if_pos h, rfl, e⟩
    · exact .inr ⟨if_neg (not_lt.mpr h), _, e, completes_drawn s _ _ _⟩
  | skp x =>
    rcases exec_skp_cases x s with ⟨h, e⟩ | ⟨h, e⟩
    · exact .inl ⟨_, _, if_pos h, rfl, e⟩
    · exact .inr ⟨if_neg (by omega), _, e, completes_skipIf s _ (by rw [keys_getD s ⟨_, h⟩])⟩
  | sknp x =>
    rcases exec_sknp_cases x s with ⟨h, e⟩ | ⟨h, e⟩
    · exact .inl ⟨_, _, if_pos h, rfl, e⟩
    · refine .inr ⟨if_neg (by omega), _, e, completes_skipIf s _ ?_⟩
      rw [keys_getD s ⟨_, h⟩]
      cases s.keyPressed ⟨_, h⟩ <;> rfl
  | ldVxDt x => exact .inr ⟨rfl, _, exec_ldVxDt x s, completes_setReg_advance s x _⟩
  | ldVxK x =>
    rcases exec_ldVxK_cases x s with ⟨hnone, e⟩ | ⟨k, hk, -, e⟩
    · have hwait : pcAfter (.ldVxK x) s = s.pc.toNat := by simp [pcAfter, hnone]
      exact .inr ⟨rfl, _, e, hwait ▸ completes_refl s _ _⟩
    · have hgo : pcAfter (.ldVxK x) s = s.pc.toNat + 2 := congrArg (s.pc.toNat + ·) (if_pos ⟨k, hk⟩)
      exact .inr ⟨rfl, _, e, hgo ▸ completes_setReg_advance s x _⟩
  | ldDtVx x => exact .inr ⟨rfl, _, exec_ldDtVx x s, completes_setDt_advance s _ _⟩
  | ldStVx x => exact .inr ⟨rfl, _, exec_ldStVx x s, completes_setSt_advance s _ _⟩
  | addI x => exact .inr ⟨rfl, _, exec_addI x s, completes_setIdx_advance s _ _⟩
  | ldF x => exact .inr ⟨rfl, _, exec_ldF x s, completes_setIdx_advance s _ _⟩
  | ldB x =>
    rcases exec_ldB_cases x s with ⟨h, e⟩ | ⟨h, e⟩
    · exact .inl ⟨_, _, if_pos h, rfl, e⟩
    · exact .inr ⟨if_neg (by omega), _, e, completes_store s _ (by rw [length_bcdDigits]; exact h)⟩
  | stRegs x =>
    rcases exec_stRegs_cases x s with ⟨h, e⟩ | ⟨h, e⟩
    · exact .inl ⟨_, _, if_pos h, rfl, e⟩
    · exact .inr ⟨if_neg (by omega), _, e, completes_store s _ (by rw [length_regsUpTo]; exact h)⟩
  | ldRegs x =>
    rcases exec_ldRegs_cases x s with ⟨h, e⟩ | ⟨h, e⟩
    · exact .inl ⟨_, _, if_pos h, rfl, e⟩
    · exact .inr ⟨if_neg (by omega), _, e, completes_loadRegs s x⟩
  | dw word => exact .inr ⟨rfl, _, exec_dw word s, completes_emit_advance s _ _⟩

/-! ### The two halves -/

theorem exec_of_faultOf_some {i : Instr} {s : State} {c : Cause} {a : Word} (h : faultOf i s = some (c, a)) :
    exec i s = .next (s.raise c a) ∧ c.code = faultCode i := by
  rcases exec_faults_or_finishes i s with ⟨c', a', hf, hcode, e⟩ | ⟨hf, -⟩
  · obtain ⟨rfl, rfl⟩ : c' = c ∧ a' = a := by simpa [hf] using h
    exact ⟨e, hcode⟩
  · rw [hf] at h
    cases h

theorem exec_of_faultOf_none {i : Instr} {s : State} (h : faultOf i s = none) :
    ∃ t, exec i s = .next t ∧ Completes (footprint i) (mayWrite i) (pcAfter i s) s t := by
  rcases exec_faults_or_finishes i s with ⟨_, _, hf, -⟩ | ⟨-, hfin⟩
  · rw [hf] at h
    cases h
  · exact hfin

/-- Everything an answer of an instruction can be. -/
theorem exec_next_cases {i : Instr} {s t : State} (h : exec i s = .next t) :
    (∃ c a, faultOf i s = some (c, a) ∧ t = s.raise c a) ∨
    (faultOf i s = none ∧ Completes (footprint i) (mayWrite i) (pcAfter i s) s t) := by
  rcases exec_faults_or_finishes i s with ⟨c, a, hf, -, e⟩ | ⟨hf, u, e, hu⟩ <;> cases h.symm.trans e
  · exact .inl ⟨c, a, hf, rfl⟩
  · exact .inr ⟨hf, hu⟩

theorem exec_answers_next (i : Instr) (s : State) : ∃ t, exec i s = .next t := by
  rcases exec_faults_or_finishes i s with ⟨_, _, _, _, e⟩ | ⟨_, _, e, _⟩ <;> exact ⟨_, e⟩

/-- An instruction changes a part other than the fault record only if its footprint holds it, also by its fault entry. -/
theorem exec_samePart {i : Instr} {s t : State} {p : Part} (h : exec i s = .next t) (hp : p ∉ footprint i)
    (hne : p ≠ .fault) : SamePart s t p := by
  rcases exec_next_cases h with ⟨c, a, -, rfl⟩ | ⟨-, hfin⟩
  · exact keepsExcept_raise s c a p fun hmem => hne (List.mem_singleton.mp hmem)
  · exact hfin.frame p hp

/-- The fault record is in no footprint. -/
theorem fault_not_mem_footprint (i : Instr) : .fault ∉ footprint i := by cases i <;> simp [footprint]

theorem sched_not_mem_footprint (i : Instr) : .sched ∉ footprint i := by cases i <;> simp [footprint]

theorem phase_not_mem_footprint (i : Instr) : .phase ∉ footprint i := by cases i <;> simp [footprint]

theorem takesFault_raise (s : State) (c : Cause) (a : Word) : TakesFault c a s (s.raise c a) :=
  ⟨rfl, rfl, rfl, rfl, keepsExcept_raise s c a⟩

/-! ### The statements -/

/-- Settles O46: the two halves of `exec_faults_or_finishes`; no footprint holds the fault record. -/
theorem faultsAreExactlyTheTable : Obligations.FaultsAreExactlyTheTable := by
  intro i s
  refine ⟨fun c a hf => ?_, fun hf => ?_⟩
  · obtain ⟨e, hcode⟩ := exec_of_faultOf_some hf
    exact ⟨_, e, takesFault_raise s c a, hcode⟩
  · obtain ⟨t, e, ht⟩ := exec_of_faultOf_none hf
    exact ⟨t, e, ht.frame .fault (fault_not_mem_footprint i)⟩

/-- Settles O47: the frame and the registers of a completion. -/
theorem instructionsKeepToTheirFootprint : Obligations.InstructionsKeepToTheirFootprint := by
  intro i s hf
  obtain ⟨t, e, ht⟩ := exec_of_faultOf_none hf
  exact ⟨t, e, ht.frame, ht.regs⟩

/-- Settles O48: the `PC` of a completion, or of a fault entry, which keeps it. -/
theorem pcAfterEveryInstruction : Obligations.PcAfterEveryInstruction := by
  intro i s hpc
  rcases exec_faults_or_finishes i s with ⟨c, a, hf, -, e⟩ | ⟨hf, t, e, ht⟩
  · exact ⟨_, e, fun hnone => absurd (hf.symm.trans hnone) (Option.some_ne_none _), fun _ => rfl⟩
  · exact ⟨t, e, fun _ => ht.pc hpc, fun hne => absurd hf hne⟩

end Sys2Proof.Machine

/-! PROOFS. Everything a machine step can do, and the statements about single steps (47_scheduler.md R230 to R238,
43_display.md R186, 60_exceptions.md R261 to R265). -/

namespace Sys2Proof.Machine

/-! ### Answers -/

theorem engineStep_answers_next (s : State) : ∃ t, engineStep s = .next t := by
  rcases engineStep_cases s with ⟨-, e⟩ | ⟨-, -, e⟩ | ⟨-, -, e⟩
  · exact ⟨_, e⟩
  · exact ⟨_, e⟩
  · rw [e]
    exact exec_answers_next _ s

/-- Everything a machine step can do: stand still, start a tick, run one engine step of the batch, end a tick. -/
theorem step_cases (s : State) :
    (s.sched = .stopped ∧ step s = .next s) ∨
    (s.sched = .active ∧ s.phase = .tickStart ∧
      step s = .next (s.beginTick s.stopRequested Config.cyclesPerTickLessOne)) ∨
    (s.sched = .active ∧ ∃ more u, s.phase = .engine more ∧ engineStep s = .next u ∧ step s = .next (u.endCycle more)) ∨
    (s.sched = .active ∧ s.phase = .tickEnd ∧ step s = .next (s.endTick (Config.keysIn s.ticks))) := by
  cases hsched : s.sched with
  | stopped => exact .inl ⟨rfl, step_stopped hsched⟩
  | active =>
    cases hphase : s.phase with
    | tickStart => exact .inr (.inl ⟨rfl, rfl, step_tickStart hsched hphase⟩)
    | engine more =>
      obtain ⟨u, hu⟩ := engineStep_answers_next s
      exact .inr (.inr (.inl ⟨rfl, more, u, rfl, hu, step_engine_of_next hsched hphase hu⟩))
    | tickEnd => exact .inr (.inr (.inr ⟨rfl, rfl, step_tickEnd hsched hphase⟩))

/-- Everything an answer of a machine step can be. -/
theorem step_next_cases {s t : State} (h : step s = .next t) :
    (s.sched = .stopped ∧ t = s) ∨
    (s.sched = .active ∧ s.phase = .tickStart ∧ t = s.beginTick s.stopRequested Config.cyclesPerTickLessOne) ∨
    (s.sched = .active ∧ ∃ more u, s.phase = .engine more ∧ engineStep s = .next u ∧ t = u.endCycle more) ∨
    (s.sched = .active ∧ s.phase = .tickEnd ∧ t = s.endTick (Config.keysIn s.ticks)) := by
  rcases step_cases s with ⟨hs, e⟩ | ⟨hs, hp, e⟩ | ⟨hs, more, u, hp, hu, e⟩ | ⟨hs, hp, e⟩ <;> cases h.symm.trans e
  · exact .inl ⟨hs, rfl⟩
  · exact .inr (.inl ⟨hs, hp, rfl⟩)
  · exact .inr (.inr (.inl ⟨hs, more, u, hp, hu, rfl⟩))
  · exact .inr (.inr (.inr ⟨hs, hp, rfl⟩))

/-- Everything an answer of an engine step can be. -/
theorem engineStep_next_cases {s t : State} (h : engineStep s = .next t) :
    (s.run = .halted ∧ t = s) ∨
    (s.run = .running ∧ 4096 < s.pc.toNat + 2 ∧ t = s.raise .pcRange s.pc) ∨
    (s.run = .running ∧ s.pc.toNat + 2 ≤ 4096 ∧ exec (decode s.fetchWord) s = .next t) := by
  rcases engineStep_cases s with ⟨hrun, e⟩ | ⟨hrun, hpc, e⟩ | ⟨hrun, hpc, e⟩
  · cases h.symm.trans e
    exact .inl ⟨hrun, rfl⟩
  · cases h.symm.trans e
    exact .inr (.inl ⟨hrun, hpc, rfl⟩)
  · exact .inr (.inr ⟨hrun, hpc, e.symm.trans h⟩)

/-- An engine step changes a part other than the fault record only if some footprint holds it. -/
theorem engineStep_samePart {s t : State} {p : Part} (h : engineStep s = .next t) (hp : ∀ i, p ∉ footprint i)
    (hne : p ≠ .fault) : SamePart s t p := by
  rcases engineStep_next_cases h with ⟨-, rfl⟩ | ⟨-, -, rfl⟩ | ⟨-, -, e⟩
  · exact KeepsExcept.refl [] t p List.not_mem_nil
  · exact keepsExcept_raise s .pcRange s.pc p fun hmem => hne (List.mem_singleton.mp hmem)
  · exact exec_samePart e (hp _) hne

/-- No engine step moves the scheduler. -/
theorem engineStep_sched {s t : State} (h : engineStep s = .next t) : t.sched = s.sched :=
  engineStep_samePart h sched_not_mem_footprint (by decide)

/-- No engine step moves the position in the tick. -/
theorem engineStep_phase {s t : State} (h : engineStep s = .next t) : t.phase = s.phase :=
  engineStep_samePart h phase_not_mem_footprint (by decide)

/-- Settles O11: every arm answers a next state, and so does every position in the tick. -/
theorem everyStepAnswersNext : Obligations.EveryStepAnswersNext := by
  refine ⟨exec_answers_next, fun s => ?_⟩
  rcases step_cases s with ⟨-, e⟩ | ⟨-, -, e⟩ | ⟨-, _, _, -, -, e⟩ | ⟨-, -, e⟩ <;> exact ⟨_, e⟩

/-! ### The engine step -/

theorem keepsExcept_endCycle (s : State) (more : Nat) : KeepsExcept [.phase] s (s.endCycle more) :=
  keepsExcept_setPhase s _

theorem endCycle_phase (s : State) (more : Nat) :
    (s.endCycle more).phase = if more = 0 then .tickEnd else .engine (more - 1) := by
  rw [endCycle_eq]

/-- Settles O8: in the batch the step is the engine step, which fetches inside memory. -/
theorem stepExecutesFetchedInstruction : Obligations.StepExecutesFetchedInstruction := by
  intro s more hsched hrun hphase hpc
  obtain ⟨t, ht⟩ := exec_answers_next (decode s.fetchWord) s
  have hstep := step_engine_of_next hsched hphase ((engineStep_of_inside hrun hpc).trans ht)
  rw [State.fetchWord, wordOfBytes] at ht
  rw [hstep, ht, endCycle_eq]

/-- Settles O9: the engine step is the fault entry of the fetch. -/
theorem fetchBeyondMemoryHalts : Obligations.FetchBeyondMemoryHalts := by
  intro s more hsched hrun hphase hpc
  exact ⟨_, step_engine_of_next hsched hphase (engineStep_of_beyond hrun hpc), rfl, rfl, rfl, rfl, rfl,
    endCycle_phase _ more, (keepsExcept_raise s .pcRange s.pc).trans (keepsExcept_endCycle _ more)⟩

/-- Settles O10: the engine step is none, and the batch moves on. -/
theorem haltedEngineStepIsNoOp : Obligations.HaltedEngineStepIsNoOp := by
  intro s more hsched hrun hphase
  exact ⟨_, step_engine_of_next hsched hphase (engineStep_of_halted hrun), endCycle_phase s more,
    keepsExcept_endCycle s more⟩

/-! ### The start of a tick -/

theorem keepsExcept_beginTick_go (s : State) (lessOne : Nat) :
    KeepsExcept [.dt, .st, .phase] s (s.beginTick false lessOne) :=
  (keepsExcept_decTimers s).trans (keepsExcept_setPhase s.decTimers _)

theorem keepsExcept_beginTick (s : State) (stop : Bool) (lessOne : Nat) :
    KeepsExcept [.dt, .st, .phase, .sched] s (s.beginTick stop lessOne) := by
  cases stop with
  | true => exact (keepsExcept_setSched s .stopped).mono (by decide)
  | false => exact (keepsExcept_beginTick_go s lessOne).mono (by decide)

theorem keepsExcept_endTick (s : State) (sample : Keys) :
    KeepsExcept [.keys, .display, .events, .sched, .phase, .ticks] s (s.endTick sample) := by
  rw [endTick_eq]
  simp [keepsExcept_iff, SamePart, State.reg, State.readByte]

theorem dt_mem_footprint_iff (i : Instr) : .dt ∈ footprint i ↔ ∃ x, i = .ldDtVx x := by
  cases i <;> simp [footprint]

theorem st_mem_footprint_iff (i : Instr) : .st ∈ footprint i ↔ ∃ x, i = .ldStVx x := by
  cases i <;> simp [footprint]

/-- An instruction changes `DT` only by writing it (44_keypad_timers.md R206). -/
theorem exec_dt {i : Instr} {s t : State} (h : exec i s = .next t) :
    t.dt = s.dt ∨ ∃ x, i = .ldDtVx x ∧ t.dt = s.reg x := by
  by_cases hmem : .dt ∈ footprint i
  · obtain ⟨x, rfl⟩ := (dt_mem_footprint_iff i).mp hmem
    cases (exec_ldDtVx x s).symm.trans h
    exact .inr ⟨x, rfl, rfl⟩
  · exact .inl (exec_samePart h hmem (by decide))

/-- An instruction changes `ST` only by writing it (44_keypad_timers.md R207). -/
theorem exec_st {i : Instr} {s t : State} (h : exec i s = .next t) :
    t.st = s.st ∨ ∃ x, i = .ldStVx x ∧ t.st = s.reg x := by
  by_cases hmem : .st ∈ footprint i
  · obtain ⟨x, rfl⟩ := (st_mem_footprint_iff i).mp hmem
    cases (exec_ldStVx x s).symm.trans h
    exact .inr ⟨x, rfl, rfl⟩
  · exact .inl (exec_samePart h hmem (by decide))

/-- A timer's decrement in the form of the statement. -/
theorem toNat_timerTick_eq_ite (b : Byte) : (timerTick b).toNat = if b.toNat > 0 then b.toNat - 1 else 0 := by
  rw [toNat_timerTick]
  split <;> omega

/-- Settles O12: the start of a tick by its own form; of the other steps only an engine step's instruction can write a
timer (`exec_dt`, `exec_st`). -/
theorem timersDecrementOnlyAtTickStart : Obligations.TimersDecrementOnlyAtTickStart := by
  refine ⟨fun s hsched hphase hstop => ?_, fun s t hstep hphase => ?_⟩
  · refine ⟨_, step_tickStart hsched hphase, ?_⟩
    rw [hstop]
    exact ⟨toNat_timerTick_eq_ite s.dt, toNat_timerTick_eq_ite s.st, keepsExcept_beginTick_go s _⟩
  · rcases step_next_cases hstep with ⟨-, rfl⟩ | ⟨-, hp, -⟩ | ⟨-, more, u, -, hu, rfl⟩ | ⟨-, -, rfl⟩
    · exact ⟨.inl rfl, .inl rfl⟩
    · exact absurd hp hphase
    · rcases engineStep_next_cases hu with ⟨-, rfl⟩ | ⟨-, -, rfl⟩ | ⟨-, -, e⟩
      · exact ⟨.inl rfl, .inl rfl⟩
      · exact ⟨.inl rfl, .inl rfl⟩
      · rw [endCycle_dt, endCycle_st]
        exact ⟨exec_dt e, exec_st e⟩
    · exact ⟨.inl (keepsExcept_endTick s _ .dt (by decide)), .inl (keepsExcept_endTick s _ .st (by decide))⟩

/-- Settles O15: the request is the only thing that decides between the two forms of a tick's start. -/
theorem stopRequestStopsForGood : Obligations.StopRequestStopsForGood := by
  refine ⟨fun s hsched hphase hticks => ⟨_, step_tickStart hsched hphase, ?_⟩, fun s => step_stopped⟩
  have hreq : s.stopRequested = Config.stopRequest s.ticks := by
    rw [State.stopRequested, decide_eq_true hticks, Bool.true_and]
  rw [hreq]
  split
  case isTrue hstop =>
    rw [hstop]
    exact ⟨rfl, keepsExcept_setSched s .stopped⟩
  case isFalse hgo =>
    rw [Bool.eq_false_iff.mpr hgo]
    exact ⟨rfl, keepsExcept_beginTick_go s _⟩

/-! ### The end of a tick -/

theorem keepsExcept_cleaned (s : State) (es : List Event) (d : Bool) :
    KeepsExcept [.display, .events] s { s with events := es, dirty := d } := by
  simp [keepsExcept_iff, SamePart, State.reg, State.keyPressed, State.readByte]

/-- Settles O14: the two cases of `present_cases`. -/
theorem presentOnlyWhenDirty : Obligations.PresentOnlyWhenDirty := by
  intro s
  rcases present_cases s with ⟨hdirty, e⟩ | ⟨hclean, e⟩
  · refine ⟨fun _ => ?_, fun h => absurd (hdirty.symm.trans h) (by decide)⟩
    rw [e]
    exact ⟨rfl, rfl, fun _ _ => rfl, keepsExcept_cleaned s _ _⟩
  · exact ⟨fun h => absurd (hclean.symm.trans h) Bool.false_ne_true, fun _ => e⟩

/-- Settles O13: the end of a tick field by field (`endTick_eq`). -/
theorem tickEndLatchesPresentsAndStops : Obligations.TickEndLatchesPresentsAndStops := by
  intro s hsched hphase
  refine ⟨_, step_tickEnd hsched hphase, ?_⟩
  have hframe := keepsExcept_endTick s (Config.keysIn s.ticks)
  rw [endTick_eq] at hframe ⊢
  exact ⟨rfl, rfl, rfl, fun _ _ => rfl, by rw [hsched], rfl, rfl, hframe⟩

/-! ### Halting -/

/-- A running machine's start of a tick, end of a tick and completing instruction leave it running. -/
theorem not_halted_of_samePart {s t : State} (hrun : s.run = .running) (h : SamePart s t .fault) : t.run ≠ .halted := by
  rw [h.1, hrun]
  decide

/-- Settles O49: of the steps from a running machine only an engine step touches the fault record, by the fetch's fault or
by the table's. -/
theorem haltHasOneOfTheFiveCauses : Obligations.HaltHasOneOfTheFiveCauses := by
  intro s t hrun hstep hhalt
  rcases step_next_cases hstep with ⟨-, rfl⟩ | ⟨-, -, rfl⟩ | ⟨-, more, u, hphase, hu, rfl⟩ | ⟨-, -, rfl⟩
  · exact absurd hhalt (not_halted_of_samePart hrun ⟨rfl, rfl, rfl, rfl⟩)
  · exact absurd hhalt (not_halted_of_samePart hrun (keepsExcept_beginTick s _ _ .fault (by decide)))
  · refine ⟨⟨more, hphase⟩, ?_⟩
    rcases engineStep_next_cases hu with ⟨hhalted, -⟩ | ⟨-, hpc, rfl⟩ | ⟨-, hpc, e⟩
    · exact absurd hhalted (not_halted_of_samePart hrun ⟨rfl, rfl, rfl, rfl⟩)
    · exact .inl ⟨hpc, rfl, rfl⟩
    · rcases exec_next_cases e with ⟨c, a, hf, rfl⟩ | ⟨-, hfin⟩
      · exact .inr ⟨hpc, hf⟩
      · exact absurd hhalt (not_halted_of_samePart hrun (hfin.frame .fault (fault_not_mem_footprint _)))
  · exact absurd hhalt (not_halted_of_samePart hrun (keepsExcept_endTick s _ .fault (by decide)))

/-- What a step of a halted machine may change: the timers, the keys, `DIRTY`, and where the scheduler stands. -/
theorem keepsExcept_step_of_halted {s t : State} (hhalt : s.run = .halted) (h : step s = .next t) :
    KeepsExcept [.dt, .st, .keys, .display, .events, .sched, .phase, .ticks] s t ∧ t.fb = s.fb := by
  rcases step_next_cases h with ⟨-, rfl⟩ | ⟨-, -, rfl⟩ | ⟨-, more, u, -, hu, rfl⟩ | ⟨-, -, rfl⟩
  · exact ⟨KeepsExcept.refl _ _, rfl⟩
  · exact ⟨(keepsExcept_beginTick s _ _).mono (by decide), by cases s.stopRequested <;> rfl⟩
  · cases (engineStep_of_halted hhalt).symm.trans hu
    exact ⟨(keepsExcept_endCycle s more).mono (by decide), rfl⟩
  · exact ⟨(keepsExcept_endTick s _).mono (by decide), by rw [endTick_eq]⟩

/-- Settles O50: by `keepsExcept_step_of_halted`. -/
theorem haltedStaysHalted : Obligations.HaltedStaysHalted := by
  intro s t hhalt hstep
  obtain ⟨hframe, hfb⟩ := keepsExcept_step_of_halted hhalt hstep
  exact ⟨hframe _ (by decide), hframe _ (by decide), hframe _ (by decide), hframe _ (by decide), hframe _ (by decide),
    hframe _ (by decide), fun r c => by rw [hfb]⟩

end Sys2Proof.Machine

/-! PROOFS. The machine's invariant, and the states a run starts from (10_state.md R24, R26, R36, R41, 40_control_flow.md
R120, 47_scheduler.md R234, R238, R241, 60_exceptions.md R261, R262). -/

namespace Sys2Proof.Machine

/-! ### What a completing instruction keeps of the invariant -/

section
variable {i : Instr} {s t : State}

/-- A store writes inside memory, so it keeps the canonical form. -/
theorem Completes.mem_wf {ps : List Part} {w : Reg → Bool} {pc : Nat} (h : Completes ps w pc s t)
    (hwf : s.mem.wf = true) : t.mem.wf = true := by
  rcases h.mem with hsame | ⟨bs, hin, hwrite⟩
  · rw [hsame]
    exact hwf
  · rw [hwrite]
    exact Memory.wf_writeRange hwf hin

theorem idx_mem_footprint_iff (i : Instr) :
    .idx ∈ footprint i ↔ (∃ nnn, i = .ldI nnn) ∨ (∃ x, i = .addI x) ∨ ∃ x, i = .ldF x := by
  cases i <;> simp [footprint]

theorem stack_mem_footprint_iff (i : Instr) : .stack ∈ footprint i ↔ i = .ret ∨ ∃ nnn, i = .call nnn := by
  cases i <;> simp [footprint]

/-- Of the three instructions that write `I` each writes at most 4095 (10_state.md R24). -/
theorem exec_idx_le (h : exec i s = .next t) (hidx : s.idx.toNat ≤ 4095) : t.idx.toNat ≤ 4095 := by
  by_cases hmem : .idx ∈ footprint i
  · rcases (idx_mem_footprint_iff i).mp hmem with ⟨nnn, rfl⟩ | ⟨x, rfl⟩ | ⟨x, rfl⟩
    · cases (exec_ldI nnn s).symm.trans h
      have := toNat_addrImm nnn
      rw [advance_idx, setIdx_idx]
      omega
    · cases (exec_addI x s).symm.trans h
      have := toNat_indexSum s x
      rw [advance_idx, setIdx_idx]
      omega
    · cases (exec_ldF x s).symm.trans h
      have := toNat_glyphAddr s x
      have := Config.fontBase.isLt
      rw [advance_idx, setIdx_idx]
      omega
  · rw [show t.idx = s.idx from exec_samePart h hmem (by decide)]
    exact hidx

/-- The largest value any instruction leaves `PC` at is 4350, the largest sum of `Bnnn` (10_state.md R26). -/
theorem pcAfter_le (hf : faultOf i s = none) (hpc : s.pc.toNat + 2 ≤ 4096)
    (hlive : ∀ k : Fin 16, k.val < s.sp.val → 2 ≤ s.stack[k].toNat ∧ s.stack[k].toNat ≤ 4096) :
    pcAfter i s ≤ 4350 := by
  cases i with
  | ret =>
    have hpos : s.sp.val ≠ 0 := fun h0 => by simp [faultOf, h0] at hf
    rw [pcAfter, stack_getD s (by omega)]
    have := (hlive ⟨s.sp.val - 1, by omega⟩ (by simp only; omega)).2
    simp only [Fin.getElem_fin] at this
    omega
  | jp nnn | call nnn => exact (show nnn.toNat ≤ 4350 by omega)
  | jpV0 nnn => exact (show nnn.toNat + (s.reg 0).toNat ≤ 4350 by omega)
  | seImm x kk | sneImm x kk | seReg x y | sneReg x y | skp x | sknp x | ldVxK x =>
    rw [pcAfter]
    split <;> omega
  | _ => exact (show s.pc.toNat + 2 ≤ 4350 by omega)

/-- What a call pushes is an address after a fetched instruction; a return frees an entry (40_control_flow.md R120,
R122). -/
theorem exec_live (h : exec i s = .next t) (hpc : s.pc.toNat + 2 ≤ 4096)
    (hlive : ∀ k : Fin 16, k.val < s.sp.val → 2 ≤ s.stack[k].toNat ∧ s.stack[k].toNat ≤ 4096) :
    ∀ k : Fin 16, k.val < t.sp.val → 2 ≤ t.stack[k].toNat ∧ t.stack[k].toNat ≤ 4096 := by
  rcases exec_next_cases h with ⟨c, a, -, rfl⟩ | ⟨hf, hfin⟩
  · exact hlive
  · by_cases hmem : .stack ∈ footprint i
    · rcases (stack_mem_footprint_iff i).mp hmem with rfl | ⟨nnn, rfl⟩
      · have hpos : 0 < s.sp.val := Nat.pos_of_ne_zero fun h0 => by simp [faultOf, h0] at hf
        cases (exec_ret_of_pos hpos).symm.trans h
        exact fun k hk => hlive k (by simp only at hk; omega)
      · have hlt : s.sp.val < 16 := by
          have hne : s.sp.val ≠ 16 := fun h16 => by simp [faultOf, h16] at hf
          omega
        cases (exec_call_of_lt nnn hlt).symm.trans h
        intro k hk
        simp only [Fin.getElem_fin, Vector.getElem_set]
        split
        · rw [toNat_pc_add_two s hpc]
          omega
        · exact hlive k (by simp only at hk; omega)
    · have hsame : t.sp = s.sp ∧ ∀ k : Fin 16, t.stack[k] = s.stack[k] := hfin.frame .stack hmem
      intro k hk
      rw [hsame.2 k]
      exact hlive k (by rw [← hsame.1]; exact hk)

end

/-! ### The fault record -/

/-- The causes of the fault table with what each says of the state (60_exceptions.md R261). -/
theorem faultOf_cases {i : Instr} {s : State} {c : Cause} {a : Word} (h : faultOf i s = some (c, a)) :
    (c = .memRange ∧ a = s.idx) ∨ (c = .stackOverflow ∧ s.sp.val = 16 ∧ a = 0) ∨
    (c = .stackUnderflow ∧ s.sp.val = 0 ∧ a = 0) ∨ (c = .keyRange ∧ a = 0) := by
  cases i with
  | ret | call nnn | drw x y n | ldB x | stRegs x | ldRegs x | skp x | sknp x =>
    simp only [faultOf, Option.ite_none_right_eq_some, Option.some.injEq, Prod.mk.injEq] at h
    obtain ⟨hcond, rfl, rfl⟩ := h
    simp [hcond]
  | _ => cases h

/-- The fault entry of an instruction fetched inside memory says the truth about the state. -/
theorem causeHolds_raise {i : Instr} {s : State} {c : Cause} {a : Word} (hpc : s.pc.toNat + 2 ≤ 4096)
    (h : faultOf i s = some (c, a)) : (s.raise c a).causeHolds := by
  have hpc' : s.pc.toNat ≤ 4094 := by omega
  rcases faultOf_cases h with ⟨rfl, rfl⟩ | ⟨rfl, hsp, rfl⟩ | ⟨rfl, hsp, rfl⟩ | ⟨rfl, rfl⟩
  · exact ⟨hpc', rfl⟩
  · exact ⟨hpc', hsp, rfl⟩
  · exact ⟨hpc', hsp, rfl⟩
  · exact ⟨hpc', rfl⟩

/-! ### The engine step -/

/-- The clauses of the invariant about the engine; the others are about where the scheduler stands. -/
structure State.EngineInv (s : State) : Prop where
  mem_wf : s.mem.wf = true
  idx_le : s.idx.toNat ≤ 4095
  pc_le : s.pc.toNat ≤ 4350
  live : ∀ k : Fin 16, k.val < s.sp.val → 2 ≤ s.stack[k].toNat ∧ s.stack[k].toNat ≤ 4096
  running_record : s.run = .running → s.cause = .noFault ∧ s.faultPc = 0 ∧ s.faultAddr = 0
  halted_record : s.run = .halted → s.faultPc = s.pc ∧ s.causeHolds

theorem State.Inv.engineInv {s : State} (h : s.Inv) : s.EngineInv := { h with }

/-- A fault entry writes only the record, which then halts for a cause that holds. -/
theorem State.EngineInv.raise {s : State} (h : s.EngineInv) {c : Cause} {a : Word} (hcause : (s.raise c a).causeHolds) :
    (s.raise c a).EngineInv :=
  { h with running_record := nofun, halted_record := fun _ => ⟨rfl, hcause⟩ }

theorem State.EngineInv.exec {i : Instr} {s t : State} (h : s.EngineInv) (hrun : s.run = .running)
    (hpc : s.pc.toNat + 2 ≤ 4096) (e : exec i s = .next t) : t.EngineInv := by
  rcases exec_next_cases e with ⟨c, a, hf, rfl⟩ | ⟨hf, hfin⟩
  · exact h.raise (causeHolds_raise hpc hf)
  · obtain ⟨hrun', hcause, hfaultPc, hfaultAddr⟩ := hfin.frame .fault (fault_not_mem_footprint i)
    exact {
      mem_wf := hfin.mem_wf h.mem_wf
      idx_le := exec_idx_le e h.idx_le
      pc_le := by rw [hfin.pc hpc]; exact pcAfter_le hf hpc h.live
      live := exec_live e hpc h.live
      running_record := fun _ => by rw [hcause, hfaultPc, hfaultAddr]; exact h.running_record hrun
      halted_record := fun hhalt => by rw [hrun', hrun] at hhalt; cases hhalt }

theorem State.EngineInv.engineStep {s t : State} (h : s.EngineInv) (e : engineStep s = .next t) : t.EngineInv := by
  rcases engineStep_next_cases e with ⟨-, rfl⟩ | ⟨-, hpc, rfl⟩ | ⟨hrun, hpc, e⟩
  · exact h
  · exact h.raise ⟨show 4095 ≤ s.pc.toNat by omega, rfl⟩
  · exact h.exec hrun hpc e

/-! ### The step -/

/-- A step of the batch: the batch shrinks and never leads to the start of a tick. -/
theorem State.EngineInv.inv_endCycle {u : State} {more : Nat} (h : u.EngineInv) (hsched : u.sched = .active)
    (hmore : more < Config.cyclesPerTick) : (u.endCycle more).Inv := by
  rw [endCycle_eq]
  refine { h with batch := fun m hm => ?_, stopped_between := fun hs => ?_, halt_stops := fun _ _ => ?_ }
  · simp only at hm
    split at hm
    · cases hm
    · cases hm
      omega
  · exact absurd (hsched.symm.trans hs) (by decide)
  · simp only
    split <;> nofun

theorem State.Inv.beginTick {s : State} (h : s.Inv) (hsched : s.sched = .active) (hphase : s.phase = .tickStart)
    (stop : Bool) : (s.beginTick stop Config.cyclesPerTickLessOne).Inv := by
  cases stop with
  | true => exact { h with stopped_between := fun _ => hphase, halt_stops := nofun }
  | false =>
    exact { h with
      batch := fun _ hm => by cases hm; exact Nat.lt_succ_self _
      stopped_between := fun hs => absurd (hsched.symm.trans hs) (by decide)
      halt_stops := fun _ _ => nofun }

theorem State.Inv.endTick {s : State} (h : s.Inv) (sample : Keys) : (s.endTick sample).Inv := by
  rw [endTick_eq]
  exact { h with
    batch := nofun
    stopped_between := fun _ => rfl
    halt_stops := fun hactive hhalt => by simp only at hactive hhalt; simp [hhalt] at hactive }

/-- Settles O52: the engine's clauses through every engine step, the scheduler's clauses position by position. -/
theorem everyStepKeepsTheInvariant : Obligations.EveryStepKeepsTheInvariant := by
  intro s t h hstep
  rcases step_next_cases hstep with ⟨-, rfl⟩ | ⟨hs, hp, rfl⟩ | ⟨hs, more, u, hp, hu, rfl⟩ | ⟨-, -, rfl⟩
  · exact h
  · exact h.beginTick hs hp _
  · exact (h.engineInv.engineStep hu).inv_endCycle ((engineStep_sched hu).trans hs) (h.batch more hp)
  · exact h.endTick _

/-! ### Reset and boot -/

/-- Settles O53: every clause at the reset values. -/
theorem resetMeetsTheInvariant : Obligations.ResetMeetsTheInvariant where
  mem_wf := rfl
  idx_le := Nat.zero_le _
  pc_le := by decide
  live _ hk := absurd hk (Nat.not_lt_zero _)
  running_record _ := ⟨rfl, rfl, rfl⟩
  halted_record := nofun
  batch := nofun
  stopped_between := nofun
  halt_stops _ := nofun

/-- Inside the font region an unlisted byte is the font's (20_memory.md R65). -/
theorem initialByte_font (j : Fin 80) : initialByte (Config.fontBase.val + j.val) = Config.fontData[j] := by
  have := Config.fontBase.isLt
  rw [initialByte, if_pos (by simp only [Config.romBase]; omega), if_pos (Nat.le_add_right _ _), Nat.add_sub_cancel_left]
  simp

/-- Outside the font region an unlisted byte is 0. -/
theorem initialByte_outside {a : Nat} (h : a < Config.fontBase.val ∨ Config.fontBase.val + 80 ≤ a) :
    initialByte a = 0 := by
  rw [initialByte]
  split
  · split
    · have hlen : Config.fontData.toList.length ≤ a - Config.fontBase.val := by
        rw [Vector.length_toList]
        omega
      exact List.getD_eq_default _ _ hlen
    · rfl
  · rfl

/-- Settles O54: memory lists nothing at reset, and every other value is written out in `State.reset`. -/
theorem resetValues : Obligations.ResetValues := by
  refine ⟨fun r => ?_, rfl, rfl, rfl, fun k => ?_, pixel_clear, rfl, rfl, rfl, fun k => ?_, rfl, rfl, rfl, rfl, rfl, rfl,
    initialByte_font, fun a => initialByte_outside⟩
  · simp [State.reg, State.reset]
  · simp [State.reset]
  · simp [State.keyPressed, State.reset]

/-- Settles O55: the load is one range write into the canonical memory of reset. -/
theorem romImageIsCopiedVerbatim : Obligations.RomImageIsCopiedVerbatim := by
  refine ⟨fun image hlen => ⟨_, if_pos hlen, fun j hj => ?_, fun a ha => ?_, keepsExcept_setMem _ _⟩,
    fun image hlen => if_neg (by simp only [Config.romMax]; omega)⟩
  · exact Memory.read_writeRange_inside rfl (by simp only [Config.memSize, Config.romBase]; omega) hj
  · exact Memory.read_writeRange_outside _ image ha

end Sys2Proof.Machine

/-! PROOFS. The steps of a tick are the tick (47_scheduler.md R234; log 19). The position in the tick is no input of an
instruction, so a batch of machine steps and as many engine steps differ in that position alone. -/

namespace Sys2Proof.Machine

/-! ### The position in the tick is not read -/

/-- A state moved to another position in the tick. -/
def State.atPhase (s : State) (p : Phase) : State := { s with phase := p }

/-- Two outcomes that are told apart by conditions that exclude each other, carried over to another position. -/
theorem next_atPhase_of_cases {P Q : Prop} {r r' : Result} {a t : State} {b : Q → State} {p : Phase} (hPQ : P → ¬ Q)
    (hc : (P ∧ r = .next a) ∨ ∃ h : Q, r = .next (b h))
    (hc' : (P ∧ r' = .next (a.atPhase p)) ∨ ∃ h : Q, r' = .next ((b h).atPhase p)) (h : r = .next t) :
    r' = .next (t.atPhase p) := by
  rcases hc with ⟨hP, e⟩ | ⟨hQ, e⟩ <;> rcases hc' with ⟨hP', e'⟩ | ⟨hQ', e'⟩
  · cases e.symm.trans h
    exact e'
  · exact absurd hQ' (hPQ hP)
  · exact absurd hQ (hPQ hP')
  · cases e.symm.trans h
    exact e'

theorem exec_atPhase {i : Instr} {s t : State} (p : Phase) (h : exec i s = .next t) :
    exec i (s.atPhase p) = .next (t.atPhase p) := by
  cases i with
  | ret => exact next_atPhase_of_cases (by omega) (exec_ret_cases s) (exec_ret_cases (s.atPhase p)) h
  | call nnn => exact next_atPhase_of_cases (by omega) (exec_call_cases nnn s) (exec_call_cases nnn (s.atPhase p)) h
  | skp x => exact next_atPhase_of_cases (by omega) (exec_skp_cases x s) (exec_skp_cases x (s.atPhase p)) h
  | sknp x => exact next_atPhase_of_cases (by omega) (exec_sknp_cases x s) (exec_sknp_cases x (s.atPhase p)) h
  | ldB x =>
    exact next_atPhase_of_cases (by omega) ((exec_ldB_cases x s).imp_right exists_prop.mpr)
      ((exec_ldB_cases x (s.atPhase p)).imp_right exists_prop.mpr) h
  | stRegs x =>
    exact next_atPhase_of_cases (by omega) ((exec_stRegs_cases x s).imp_right exists_prop.mpr)
      ((exec_stRegs_cases x (s.atPhase p)).imp_right exists_prop.mpr) h
  | ldRegs x =>
    exact next_atPhase_of_cases (by omega) ((exec_ldRegs_cases x s).imp_right exists_prop.mpr)
      ((exec_ldRegs_cases x (s.atPhase p)).imp_right exists_prop.mpr) h
  | drw x y n =>
    exact next_atPhase_of_cases (by omega) ((exec_drw_faults_or_draws x y n s).imp_right exists_prop.mpr)
      ((exec_drw_faults_or_draws x y n (s.atPhase p)).imp_right exists_prop.mpr) h
  | ldVxK x =>
    have hkeys : (s.atPhase p).firstPressed = s.firstPressed := rfl
    simp only [exec, execLdVxK, hkeys] at h ⊢
    split at h <;> cases h <;> rfl
  | _ => cases h; rfl

theorem engineStep_atPhase {s t : State} (p : Phase) (h : engineStep s = .next t) :
    engineStep (s.atPhase p) = .next (t.atPhase p) := by
  rcases engineStep_next_cases h with ⟨hrun, rfl⟩ | ⟨hrun, hpc, rfl⟩ | ⟨hrun, hpc, e⟩
  · exact engineStep_of_halted hrun
  · exact engineStep_of_beyond hrun hpc
  · exact (engineStep_of_inside (s := s.atPhase p) hrun hpc).trans (exec_atPhase p e)

/-! ### The batch -/

theorem runCycles_succ_of_next {s t : State} (n : Nat) (h : engineStep s = .next t) :
    runCycles (n + 1) s = runCycles n t := by
  rw [runCycles, h]

theorem runCycles_answers_next (n : Nat) (s : State) :
    ∃ t, runCycles n s = .next t ∧ t.sched = s.sched ∧ t.phase = s.phase := by
  induction n generalizing s with
  | zero => exact ⟨s, rfl, rfl, rfl⟩
  | succ n ih =>
    obtain ⟨u, hu⟩ := engineStep_answers_next s
    obtain ⟨t, ht, hsched, hphase⟩ := ih u
    exact ⟨t, (runCycles_succ_of_next n hu).trans ht, hsched.trans (engineStep_sched hu),
      hphase.trans (engineStep_phase hu)⟩

/-- The machine steps of a batch are its engine steps, and lead to the end of the tick. -/
theorem run_batch {n : Nat} {s t : State} (hsched : s.sched = .active) (h : runCycles (n + 1) s = .next t) :
    Sys2Proof.core.run (n + 1) (s.atPhase (.engine n)) = .next (t.atPhase .tickEnd) := by
  induction n generalizing s with
  | zero =>
    obtain ⟨u, hu⟩ := engineStep_answers_next s
    cases (runCycles_succ_of_next 0 hu).symm.trans h
    have hstep := step_engine_of_next (s := s.atPhase (.engine 0)) hsched rfl (engineStep_atPhase _ hu)
    exact (run_succ_of_next 0 hstep).trans (run_zero _)
  | succ n ih =>
    obtain ⟨u, hu⟩ := engineStep_answers_next s
    have hstep := step_engine_of_next (s := s.atPhase (.engine (n + 1))) hsched rfl (engineStep_atPhase _ hu)
    refine (run_succ_of_next (n + 1) hstep).trans ?_
    exact ih (s := u) ((engineStep_sched hu).trans hsched) ((runCycles_succ_of_next (n + 1) hu).symm.trans h)

/-! ### The end of the tick -/

/-- Latch, present and stop are the end of a tick but for the position and the count of ticks. -/
theorem stopIfHalted_present_latchKeys (s : State) (sample : Keys) :
    (s.latchKeys sample).present.stopIfHalted = { s.endTick sample with phase := s.phase, ticks := s.ticks } := by
  rw [endTick_eq]
  cases hd : s.dirty <;> cases hr : s.run <;>
    simp [State.present, State.stopIfHalted, State.latchKeys, State.emit, hd, hr]

theorem endTick_atPhase (s : State) (sample : Keys) (p : Phase) :
    (s.atPhase p).endTick sample = s.endTick sample := by
  rw [endTick_eq, endTick_eq]
  rfl

/-- `Tick()` from what its engine steps answer. -/
theorem tick_of_runCycles {s t : State} (hphase : t.phase = .tickStart)
    (h : runCycles Config.cyclesPerTick s.decTimers = .next t) : tick s = .next (t.endTick (Config.keysIn t.ticks)) := by
  rw [tick, h]
  simp only [stopIfHalted_present_latchKeys, hphase]
  rw [endTick_eq]

/-- Settles O16: the start, the batch (`run_batch`) and the end of the tick, one after the other. -/
theorem stepsOfATickAreTheTick : Obligations.StepsOfATickAreTheTick := by
  intro s hsched hphase hstop
  obtain ⟨t, ht, htsched, htphase⟩ := runCycles_answers_next Config.cyclesPerTick s.decTimers
  have hstart : step s = .next (s.decTimers.atPhase (.engine Config.cyclesPerTickLessOne)) := by
    rw [step_tickStart hsched hphase, hstop]
    rfl
  have hbatch : Sys2Proof.core.run Config.cyclesPerTick (s.decTimers.atPhase (.engine Config.cyclesPerTickLessOne)) =
    .next (t.atPhase .tickEnd) := run_batch hsched ht
  have hend : step (t.atPhase .tickEnd) = .next (t.endTick (Config.keysIn t.ticks)) := by
    rw [step_tickEnd (s := t.atPhase .tickEnd) (htsched.trans hsched) rfl, endTick_atPhase]
    rfl
  rw [run_succ_of_next (Config.cyclesPerTick + 1) hstart, run_add_of_next 1 hbatch, run_succ_of_next 0 hend, run_zero]
  exact (tick_of_runCycles (htphase.trans hphase) ht).symm

end Sys2Proof.Machine

/-! PROOFS. The decoder against the opcode map, and the words as numbers (30_encoding.md R91 to R100). -/

namespace Sys2Proof

/-! ### Every row of the map has its instruction -/

section
variable {op : Word}

theorem toNat_wField_of_covers {w : BitVec 4} (h : (OpcodeRow.mk 0xF000 (packXYN w 0 0 0)).covers op = true) :
    (wField op).toNat = w.toNat := by
  rw [toNat_wField]
  exact (covers_mask_F000 op w).mp h

/-- A covered word of mask `0xF00F` is packed from its own operands. -/
theorem packXYN_of_covers {w n : BitVec 4} (h : (OpcodeRow.mk 0xF00F (packXYN w 0 0 n)).covers op = true) :
    packXYN w (xField op) (yField op) n = op := by
  obtain ⟨hw, hn⟩ := (covers_mask_F00F op w n).mp h
  rw [← toNat_wField] at hw
  rw [← toNat_nField] at hn
  exact packXYN_of_wField_nField hw (BitVec.eq_of_toNat_eq hn)

/-- A covered word of mask `0xF0FF` is packed from its own register. -/
theorem packXKK_of_covers {w : BitVec 4} {kk : Byte} (h : (OpcodeRow.mk 0xF0FF (packXKK w 0 kk)).covers op = true) :
    packXKK w (xField op) kk = op := by
  obtain ⟨hw, hkk⟩ := (covers_mask_F0FF op w kk).mp h
  rw [← toNat_wField] at hw
  rw [← toNat_kkField] at hkk
  have hpack : packXKK w (xField op) (kkField op) = op := packXKK_of_wField hw
  rwa [BitVec.eq_of_toNat_eq hkk] at hpack

/-- The word is the encoding of an instruction of the row. -/
def HasInstr (r : OpcodeRow) (op : Word) : Prop := ∃ i : Instr, i.isUnknown = false ∧ i.row = r ∧ encode i = op

theorem hasInstr_of_control {r : OpcodeRow} (hr : r ∈ opcodeRowsControl) (h : r.covers op = true) : HasInstr r op := by
  simp only [opcodeRowsControl, List.mem_cons, List.not_mem_nil, or_false] at hr
  rcases hr with rfl | rfl | rfl | rfl | rfl | rfl | rfl | rfl | rfl
  · exact ⟨.cls, rfl, rfl, (BitVec.eq_of_toNat_eq ((covers_mask_FFFF op _).mp h)).symm⟩
  · exact ⟨.ret, rfl, rfl, (BitVec.eq_of_toNat_eq ((covers_mask_FFFF op _).mp h)).symm⟩
  · exact ⟨.jp (nnnField op), rfl, rfl, packNNN_of_wField (toNat_wField_of_covers (w := 0x1) h)⟩
  · exact ⟨.call (nnnField op), rfl, rfl, packNNN_of_wField (toNat_wField_of_covers (w := 0x2) h)⟩
  · exact ⟨.seImm (xField op) (kkField op), rfl, rfl, packXKK_of_wField (toNat_wField_of_covers (w := 0x3) h)⟩
  · exact ⟨.sneImm (xField op) (kkField op), rfl, rfl, packXKK_of_wField (toNat_wField_of_covers (w := 0x4) h)⟩
  · exact ⟨.seReg (xField op) (yField op), rfl, rfl, packXYN_of_covers (w := 0x5) (n := 0x0) h⟩
  · exact ⟨.ldImm (xField op) (kkField op), rfl, rfl, packXKK_of_wField (toNat_wField_of_covers (w := 0x6) h)⟩
  · exact ⟨.addImm (xField op) (kkField op), rfl, rfl, packXKK_of_wField (toNat_wField_of_covers (w := 0x7) h)⟩

theorem hasInstr_of_alu {r : OpcodeRow} (hr : r ∈ opcodeRowsAlu) (h : r.covers op = true) : HasInstr r op := by
  simp only [opcodeRowsAlu, List.mem_cons, List.not_mem_nil, or_false] at hr
  rcases hr with rfl | rfl | rfl | rfl | rfl | rfl | rfl | rfl | rfl
  · exact ⟨.ldReg (xField op) (yField op), rfl, rfl, packXYN_of_covers (w := 0x8) (n := 0x0) h⟩
  · exact ⟨.orReg (xField op) (yField op), rfl, rfl, packXYN_of_covers (w := 0x8) (n := 0x1) h⟩
  · exact ⟨.andReg (xField op) (yField op), rfl, rfl, packXYN_of_covers (w := 0x8) (n := 0x2) h⟩
  · exact ⟨.xorReg (xField op) (yField op), rfl, rfl, packXYN_of_covers (w := 0x8) (n := 0x3) h⟩
  · exact ⟨.addReg (xField op) (yField op), rfl, rfl, packXYN_of_covers (w := 0x8) (n := 0x4) h⟩
  · exact ⟨.subReg (xField op) (yField op), rfl, rfl, packXYN_of_covers (w := 0x8) (n := 0x5) h⟩
  · exact ⟨.shr (xField op) (yField op), rfl, rfl, packXYN_of_covers (w := 0x8) (n := 0x6) h⟩
  · exact ⟨.subn (xField op) (yField op), rfl, rfl, packXYN_of_covers (w := 0x8) (n := 0x7) h⟩
  · exact ⟨.shl (xField op) (yField op), rfl, rfl, packXYN_of_covers (w := 0x8) (n := 0xE) h⟩

theorem hasInstr_of_mid {r : OpcodeRow} (hr : r ∈ opcodeRowsMid) (h : r.covers op = true) : HasInstr r op := by
  simp only [opcodeRowsMid, List.mem_cons, List.not_mem_nil, or_false] at hr
  rcases hr with rfl | rfl | rfl | rfl | rfl | rfl | rfl
  · exact ⟨.sneReg (xField op) (yField op), rfl, rfl, packXYN_of_covers (w := 0x9) (n := 0x0) h⟩
  · exact ⟨.ldI (nnnField op), rfl, rfl, packNNN_of_wField (toNat_wField_of_covers (w := 0xA) h)⟩
  · exact ⟨.jpV0 (nnnField op), rfl, rfl, packNNN_of_wField (toNat_wField_of_covers (w := 0xB) h)⟩
  · exact ⟨.rnd (xField op) (kkField op), rfl, rfl, packXKK_of_wField (toNat_wField_of_covers (w := 0xC) h)⟩
  · exact ⟨.drw (xField op) (yField op) (nCount op), rfl, rfl,
      packXYN_of_wField (toNat_wField_of_covers (w := 0xD) h)⟩
  · exact ⟨.skp (xField op), rfl, rfl, packXKK_of_covers (w := 0xE) (kk := 0x9E) h⟩
  · exact ⟨.sknp (xField op), rfl, rfl, packXKK_of_covers (w := 0xE) (kk := 0xA1) h⟩

theorem hasInstr_of_F {r : OpcodeRow} (hr : r ∈ opcodeRowsF) (h : r.covers op = true) : HasInstr r op := by
  simp only [opcodeRowsF, List.mem_cons, List.not_mem_nil, or_false] at hr
  rcases hr with rfl | rfl | rfl | rfl | rfl | rfl | rfl | rfl | rfl
  · exact ⟨.ldVxDt (xField op), rfl, rfl, packXKK_of_covers (w := 0xF) (kk := 0x07) h⟩
  · exact ⟨.ldVxK (xField op), rfl, rfl, packXKK_of_covers (w := 0xF) (kk := 0x0A) h⟩
  · exact ⟨.ldDtVx (xField op), rfl, rfl, packXKK_of_covers (w := 0xF) (kk := 0x15) h⟩
  · exact ⟨.ldStVx (xField op), rfl, rfl, packXKK_of_covers (w := 0xF) (kk := 0x18) h⟩
  · exact ⟨.addI (xField op), rfl, rfl, packXKK_of_covers (w := 0xF) (kk := 0x1E) h⟩
  · exact ⟨.ldF (xField op), rfl, rfl, packXKK_of_covers (w := 0xF) (kk := 0x29) h⟩
  · exact ⟨.ldB (xField op), rfl, rfl, packXKK_of_covers (w := 0xF) (kk := 0x33) h⟩
  · exact ⟨.stRegs (xField op), rfl, rfl, packXKK_of_covers (w := 0xF) (kk := 0x55) h⟩
  · exact ⟨.ldRegs (xField op), rfl, rfl, packXKK_of_covers (w := 0xF) (kk := 0x65) h⟩

theorem hasInstr_of_covers {r : OpcodeRow} (hr : r ∈ opcodeRows) (h : r.covers op = true) : HasInstr r op := by
  simp only [opcodeRows, List.mem_append] at hr
  rcases hr with ((hr | hr) | hr) | hr
  · exact hasInstr_of_control hr h
  · exact hasInstr_of_alu hr h
  · exact hasInstr_of_mid hr h
  · exact hasInstr_of_F hr h

/-! ### What the decoder answers -/

theorem row_decode_of_covers {r : OpcodeRow} (hr : r ∈ opcodeRows) (h : r.covers op = true) : (decode op).row = r := by
  obtain ⟨i, hknown, hrow, rfl⟩ := hasInstr_of_covers hr h
  rw [decode_encode_of_row hknown, hrow]

theorem encode_decode (op : Word) : encode (decode op) = op := by
  cases h : decodeDefined op with
  | none => rw [decode, h, Option.getD_none, encode]
  | some i => rw [decode, h, Option.getD_some, (encode_of_decodeDefined h).2]

theorem covers_of_row_decode {r : OpcodeRow} (h : (decode op).row = r) : r.covers op = true := by
  have hcov := row_covers_encode (decode op)
  rwa [h, encode_decode] at hcov

theorem isUnknownWord_iff (op : Word) : isUnknownWord op = true ↔ ∀ r ∈ opcodeRows, r.covers op = false := by
  simp only [isUnknownWord, List.all_eq_true, Bool.not_eq_true']

/-- The row of the default arm is none of the map. -/
theorem isUnknownWord_of_decode_dw {w : Word} (h : decode op = .dw w) : isUnknownWord op = true := by
  refine (isUnknownWord_iff op).mpr fun r hr => Bool.eq_false_iff.mpr fun hcov => ?_
  have hrow : (Instr.dw w).row = r := h ▸ row_decode_of_covers hr hcov
  have hnone : (⟨0x0000, 0x0000⟩ : OpcodeRow) ∉ opcodeRows := by decide
  rw [← hrow] at hr
  exact hnone hr

theorem decode_eq_dw_iff (op : Word) : decode op = .dw op ↔ isUnknownWord op = true :=
  ⟨isUnknownWord_of_decode_dw, decode_of_isUnknownWord⟩

end

/-- Settles O2: the word the default arm holds is the decoded one, and lies in no row. -/
theorem encodeInvertsDecode : Obligations.EncodeInvertsDecode := by
  intro op
  refine ⟨?_, encode_decode op⟩
  cases h : decode op with
  | dw w =>
    obtain rfl : w = op := (congrArg encode h).symm.trans (encode_decode op)
    exact isUnknownWord_of_decode_dw h
  | _ => rfl

/-- Settles O3: a covered word has an instruction of the row (`hasInstr_of_covers`), which the decoder finds; so two rows
of one word are the same row. -/
theorem dispatchFollowsMaskAndMatch : Obligations.DispatchFollowsMaskAndMatch := by
  refine ⟨fun op r hr => ⟨row_decode_of_covers hr, covers_of_row_decode⟩, ?_,
    fun op => (isUnknownWord_iff op).symm.trans (decode_eq_dw_iff op).symm⟩
  have hnodup : opcodeRows.Pairwise (· ≠ ·) := by decide
  refine hnodup.imp_of_mem fun ha hb hne op hcov => hne ?_
  exact (row_decode_of_covers ha hcov.1).symm.trans (row_decode_of_covers hb hcov.2)

/-! ### The unknown words -/

theorem decode_eq_dw_iff_decodeDefined (op : Word) : decode op = .dw op ↔ decodeDefined op = none := by
  cases h : decodeDefined op with
  | none => simp only [decode, h, Option.getD_none]
  | some i =>
    have hknown := (encode_of_decodeDefined h).1
    simp only [decode, h, Option.getD_some, reduceCtorEq, iff_false]
    rintro rfl
    cases hknown

theorem decodeZero_eq_none_iff (op : Word) : decodeZero op = none ↔ op.toNat ≠ 0x00E0 ∧ op.toNat ≠ 0x00EE := by
  unfold decodeZero
  split <;> simp_all

theorem aluSubop_eq_none_iff (n : BitVec 4) (x y : Reg) :
    aluSubop n x y = none ↔ n.toNat ∈ [8, 9, 10, 11, 12, 13, 15] := by
  unfold aluSubop
  split
  case h_10 =>
    simp only [imp_false] at *
    simp only [List.mem_cons, List.not_mem_nil, or_false, true_iff]
    omega
  all_goals simp_all

theorem decodeE_eq_none_iff (kk : Byte) (x : Reg) : decodeE kk x = none ↔ kk.toNat ∉ [0x9E, 0xA1] := by
  unfold decodeE
  split <;> simp_all

theorem decodeF_eq_none_iff (kk : Byte) (x : Reg) :
    decodeF kk x = none ↔ kk.toNat ∉ [0x07, 0x0A, 0x15, 0x18, 0x1E, 0x29, 0x33, 0x55, 0x65] := by
  unfold decodeF
  split <;> simp_all

theorem nField_eq_zero_iff (op : Word) : nField op = 0#4 ↔ (nField op).toNat = 0 := BitVec.toNat_inj.symm

/-- Settles O6: the branches of the dispatch, one per major opcode. -/
theorem unknownWordsEnumerated : Obligations.UnknownWordsEnumerated := by
  intro op
  rw [decode_eq_dw_iff_decodeDefined, ← toNat_wField, ← toNat_nField, ← toNat_kkField]
  unfold decodeDefined
  split
  case h_1 hw => simp [hw, decodeZero_eq_none_iff]
  case h_6 hw | h_10 hw => simp [hw, nField_eq_zero_iff]
  case h_9 hw => simp [hw, aluSubop_eq_none_iff]
  case h_15 hw => simp [hw, decodeE_eq_none_iff]
  case h_16 =>
    have hw : (wField op).toNat = 15 := by simp only [imp_false] at *; omega
    simp [hw, decodeF_eq_none_iff]
  all_goals next hw => simp [hw]

/-- Settles O7: word by word, by evaluation. -/
theorem exampleWordsDecode : Obligations.ExampleWordsDecode :=
  ⟨by decide, by decide, by decide, by decide, by decide, by decide, by decide, by decide, by decide, by decide,
    by decide, by decide⟩

/-! ### The words as numbers -/

/-- Format `XKK` with the operands in the order of the statement's sums. -/
theorem toNat_packXKK_operands (w : BitVec 4) (x : Reg) (kk : Byte) :
    (packXKK w x kk).toNat = w.toNat * 4096 + 256 * x.val + kk.toNat := by
  rw [toNat_packXKK, Nat.mul_comm x.val]

/-- Format `X`: the low byte is part of the opcode. -/
theorem toNat_packXKK_opcode (w : BitVec 4) (x : Reg) (kk : Byte) :
    (packXKK w x kk).toNat = w.toNat * 4096 + kk.toNat + 256 * x.val := by
  rw [toNat_packXKK_operands, Nat.add_right_comm]

/-- Format `XYN` with the operands in the order of the statement's sums. -/
theorem toNat_packXYN_operands (w : BitVec 4) (x y : Reg) (n : BitVec 4) :
    (packXYN w x y n).toNat = w.toNat * 4096 + 256 * x.val + 16 * y.val + n.toNat := by
  rw [toNat_packXYN, Nat.mul_comm x.val, Nat.mul_comm y.val]

/-- Format `XY`: the low nibble is part of the opcode. -/
theorem toNat_packXYN_opcode (w : BitVec 4) (x y : Reg) (n : BitVec 4) :
    (packXYN w x y n).toNat = w.toNat * 4096 + n.toNat + 256 * x.val + 16 * y.val := by
  rw [toNat_packXYN_operands]
  omega

section
open Machine

/-- Settles O5: format by format, each word by the place values of its format. -/
theorem encodingByPlaceValue : Obligations.EncodingByPlaceValue :=
  ⟨rfl, rfl,
    fun nnn => ⟨toNat_packNNN 0x1 nnn, toNat_packNNN 0x2 nnn, toNat_packNNN 0xA nnn, toNat_packNNN 0xB nnn⟩,
    fun x kk => ⟨toNat_encode_seImm x kk, toNat_encode_sneImm x kk, toNat_encode_ldImm x kk,
      toNat_packXKK_operands 0x7 x kk, toNat_packXKK_operands 0xC x kk⟩,
    fun x y => ⟨toNat_encode_seReg x y, toNat_packXYN_opcode 0x8 x y 0x0, toNat_packXYN_opcode 0x8 x y 0x1,
      toNat_packXYN_opcode 0x8 x y 0x2, toNat_packXYN_opcode 0x8 x y 0x3, toNat_packXYN_opcode 0x8 x y 0x4,
      toNat_packXYN_opcode 0x8 x y 0x5, toNat_packXYN_opcode 0x8 x y 0x6, toNat_packXYN_opcode 0x8 x y 0x7,
      toNat_packXYN_opcode 0x8 x y 0xE, toNat_encode_sneReg x y,
      fun n => toNat_packXYN_operands 0xD x y (Reg.bits n)⟩,
    fun x => ⟨toNat_packXKK_opcode 0xE x 0x9E, toNat_packXKK_opcode 0xE x 0xA1, toNat_encode_ldVxDt x,
      toNat_packXKK_F x 0x0A, toNat_encode_ldDtVx x, toNat_encode_ldStVx x, toNat_packXKK_F x 0x1E,
      toNat_packXKK_F x 0x29, toNat_packXKK_F x 0x33, toNat_packXKK_F x 0x55, toNat_packXKK_F x 0x65⟩⟩

end

end Sys2Proof
